-- ==== Sys2Proof/Word.lean ====
section
/-! DEFINITION. The word types of the machine (00_scope.md R6: XLEN = 32, the byte of 8 bits, NREG = 16). -/

namespace Sys2Proof

/-- A 32-bit value: a register, an immediate, the instruction pointer, a memory data cell (00_scope.md R6). -/
abbrev Word := BitVec 32

/-- A byte of memory or of an instruction (20_memory.md R34). -/
abbrev Byte := BitVec 8

/-- Four bits: half a byte (00_scope.md section 5). -/
abbrev Nibble := BitVec 4

/-- A register field: always four bits, so always one of the 16 registers (10_state.md R17). -/
abbrev Reg := BitVec 4

end Sys2Proof
end

