-- ==== Sys2Proof/Machine/Bytes.lean ====
section
/-! DEFINITION. Nibbles of a byte and the little-endian byte order (00_scope.md section 5, 20_memory.md R36). -/

namespace Sys2Proof.Machine

/-- The high nibble b[7:4] (00_scope.md section 5). -/
def hiNibble (b : Byte) : Nibble := b.extractLsb' 4 4

/-- The low nibble b[3:0] (00_scope.md section 5). -/
def loNibble (b : Byte) : Nibble := b.extractLsb' 0 4

/-- The byte with high nibble `hi` and low nibble `lo`. -/
def joinNibbles (hi lo : Nibble) : Byte := hi ++ lo

/-- The 32-bit value of four bytes in address order, the lowest address least significant (20_memory.md R36, R38). -/
def leWord (b0 b1 b2 b3 : Byte) : Word := b3 ++ b2 ++ b1 ++ b0

/-- Byte `k` of a 32-bit value: bits 8k+7 to 8k (20_memory.md R39). -/
def byteOf (v : Word) (k : Nat) : Byte := v.extractLsb' (8 * k) 8

/-- The four bytes of a 32-bit value in address order (20_memory.md R36, R39). -/
def leBytes (v : Word) : List Byte := [byteOf v 0, byteOf v 1, byteOf v 2, byteOf v 3]

end Sys2Proof.Machine
end

