-- ==== Sys2Proof/Config.lean ====
section
/-! DEFINITION. The parameters of the machine (00_scope.md R6 and R7): their types and their named values. Which
value is in force stands in Machine/Params.lean. -/

namespace Sys2Proof.Config

/-- MEM_SIZE: the bytes of memory (00_scope.md R6, 10_state.md R29). DESIGN CHOICE (log 7): fixed at the reference
value 65536. Unsafe for an instance with another capacity. -/
abbrev memSize : Nat := 65536

/-- RESET_PC: the instruction pointer after reset (10_state.md R32). DESIGN CHOICE (log 6): the spec's value 0.
Unsafe if the reference starts elsewhere. -/
def resetPc : Word := 0

/-- A total Boolean function of the flag bits S and Z, written as its truth table: the four columns
(S,Z) = (0,0), (0,1), (1,0), (1,1) of 45_control_transfer.md R108. -/
structure TruthTable where
  s0z0 : Bool
  s0z1 : Bool
  s1z0 : Bool
  s1z1 : Bool
  deriving DecidableEq, Repr

/-- The value of a truth table at (S, Z). -/
def TruthTable.eval (t : TruthTable) (s z : Bool) : Bool :=
  match s, z with
  | false, false => t.s0z0
  | false, true => t.s0z1
  | true, false => t.s1z0
  | true, true => t.s1z1

/-- The six conditional jumps, numbered 0 to 5 in this order (45_control_transfer.md R107, decision D5). -/
inductive Cond where
  | je
  | jne
  | jg
  | jge
  | jl
  | jle
  deriving DecidableEq, Repr

/-- COND: one truth table for each conditional jump (45_control_transfer.md R107, R108). -/
structure CondTable where
  je : TruthTable
  jne : TruthTable
  jg : TruthTable
  jge : TruthTable
  jl : TruthTable
  jle : TruthTable
  deriving DecidableEq, Repr

/-- The row of a COND table for one conditional jump. -/
def CondTable.row (t : CondTable) (k : Cond) : TruthTable :=
  match k with
  | .je => t.je
  | .jne => t.jne
  | .jg => t.jg
  | .jge => t.jge
  | .jl => t.jl
  | .jle => t.jle

/-- COND_VALUE, the spec's default table (45_control_transfer.md R108, first table). -/
def condValue : CondTable where
  je := ⟨true, false, true, false⟩
  jne := ⟨false, true, false, true⟩
  jg := ⟨false, true, false, false⟩
  jge := ⟨true, true, false, false⟩
  jl := ⟨false, false, true, true⟩
  jle := ⟨true, false, true, true⟩

/-- COND_LITERAL, the spec's named alternative (45_control_transfer.md R108, second table). -/
def condLiteral : CondTable where
  je := ⟨false, true, false, true⟩
  jne := ⟨true, false, true, false⟩
  jg := ⟨true, false, false, false⟩
  jge := ⟨true, true, false, false⟩
  jl := ⟨false, false, true, true⟩
  jle := ⟨false, true, true, true⟩

/-- SHAMT_MODE: how a shift amount outside 0 to 31 is treated (43_alu.md R94). -/
inductive ShamtMode where
  | low5
  | faultOutside0To31
  deriving DecidableEq, Repr

/-- The 30 mnemonics of the instruction table (30_encoding.md R57). -/
inductive Mnemonic where
  | nop
  | mov
  | not
  | neg
  | cmp
  | mul
  | div
  | jmp
  | je
  | jne
  | jg
  | jge
  | jl
  | jle
  | call
  | ret
  | movi
  | st
  | ld
  | add
  | sub
  | and
  | or
  | xor
  | shl
  | shr
  | sar
  | jmpr
  | callr
  | hlt
  deriving DecidableEq, Repr

/-- The instruction is one of the 14 of tier 2, whose opcode byte is chosen by its high nibble (30_encoding.md R56). -/
def Mnemonic.inTier2 (mn : Mnemonic) : Bool :=
  match mn with
  | .nop => false
  | .mov => false
  | .not => false
  | .neg => false
  | .cmp => false
  | .mul => false
  | .div => false
  | .jmp => false
  | .je => false
  | .jne => false
  | .jg => false
  | .jge => false
  | .jl => false
  | .jle => false
  | .call => false
  | .ret => false
  | .movi => true
  | .st => true
  | .ld => true
  | .add => true
  | .sub => true
  | .and => true
  | .or => true
  | .xor => true
  | .shl => true
  | .shr => true
  | .sar => true
  | .jmpr => true
  | .callr => true
  | .hlt => true

/-- OPMAP: the mnemonic of each instruction index, index 0 first (30_encoding.md R57, decision D3). -/
abbrev OpMap := List Mnemonic

/-- The spec's default OPMAP (30_encoding.md R57, the table): tier 1, then tier 2. -/
def standardOpMap : OpMap :=
  [.nop, .mov, .not, .neg, .cmp, .mul, .div, .jmp, .je, .jne, .jg, .jge, .jl, .jle, .call, .ret] ++
  [.movi, .st, .ld, .add, .sub, .and, .or, .xor, .shl, .shr, .sar, .jmpr, .callr, .hlt]

/-- What any value of OPMAP must keep (30_encoding.md R57): the 30 instructions, the tier of each, index 16 = MOVI, index
29 = HLT. (Shape and length belong to the mnemonic, so every map keeps them.) -/
structure LegalOpMap (m : OpMap) : Prop where
  perm : m.Perm standardOpMap
  tier : ∀ (k : Nat) (mn : Mnemonic), m[k]? = some mn → (mn.inTier2 = true ↔ 16 ≤ k)
  movi : m[16]? = some .movi
  hlt : m[29]? = some .hlt

/-- The parameters that the machine takes as arguments (00_scope.md R7): the two that 92_eei_decisions.md marks OPEN, OPMAP
(D3) and COND (D6), and SHAMT_MODE (D14). -/
structure Params where
  opMap : OpMap
  cond : CondTable
  shamt : ShamtMode
  deriving DecidableEq, Repr

end Sys2Proof.Config
end

