-- ==== Sys2Proof/Machine/State.lean ====
section
/-! DEFINITION. The state of the machine: the five things of 10_state.md R13, as plain data, and the state after reset. -/

namespace Sys2Proof.Machine

/-- The flags register F: four independent bits (10_state.md R21). -/
structure Flags where
  /-- F.S: bit 31 of the last comparison's difference. -/
  sign : Bool
  /-- F.Z: the last comparison's difference was NOT zero (10_state.md R21, the source's polarity). -/
  nonzero : Bool
  /-- F.C: a placeholder that nothing computes or reads (10_state.md R24, log 8). -/
  carry : Bool
  /-- F.O: a placeholder that nothing computes or reads (10_state.md R24, log 8). -/
  overflow : Bool
  deriving DecidableEq, Repr

/-- The three architectural faults (60_exceptions.md R133). -/
inductive FaultKind where
  /-- Code 1: a byte of a fetch, a LD or a ST is outside memory. -/
  | outOfBoundsAccess
  /-- Code 2: DIV with a divisor register holding 0. -/
  | divisionByZero
  /-- Code 3: the opcode byte is 0xF0 to 0xFF. -/
  | invalidOpcode
  deriving DecidableEq, Repr

/-- What an instruction or a fetch raises: the kind and the info value of 60_exceptions.md R135. -/
structure Raised where
  kind : FaultKind
  info : Word
  deriving DecidableEq, Repr

/-- The fault record (10_state.md R27, 60_exceptions.md R135). -/
structure FaultRecord where
  kind : FaultKind
  pc : Word
  info : Word
  deriving DecidableEq, Repr

/-- The run state (10_state.md R26). The fault record exists exactly when the machine is Faulted, since otherwise it "has
no meaning" (10_state.md R27, log 9). -/
inductive RunState where
  | running
  | halted
  | faulted (record : FaultRecord)
  deriving DecidableEq, Repr

/-- Memory M: the bytes that are not zero, as (address, byte) pairs with addresses strictly rising; an unlisted address
reads as zero, its value at reset (10_state.md R29, R32). The form is `Memory.wf` of Machine/Memory.lean. -/
abbrev Memory := List Host.Cell

/-- The whole state of the machine (10_state.md R13). -/
structure State where
  /-- x[0] to x[15] (10_state.md R14). -/
  regs : Vector Word 16
  /-- The instruction pointer (10_state.md R18). -/
  pc : Word
  /-- F (10_state.md R21). -/
  flags : Flags
  /-- M (10_state.md R29). -/
  mem : Memory
  /-- run, with the fault record (10_state.md R26, R27). -/
  run : RunState
  deriving DecidableEq, Repr

/-- Model-level stops of a step. No architectural fault is one: those are next states with `run` Faulted
(60_exceptions.md R140, log 2). -/
inductive Fault where
  /-- Raised by SHL, SHR and SAR for an amount above 31, only under SHAMT_MODE = fault_outside_0_31 (43_alu.md R94,
  93_implementation_defined.md U6), which is not in force. Safe: the machine stops where no result is defined. -/
  | shiftAmountUndefined
  deriving DecidableEq, Repr

/-- Why a step has no meaning. -/
inductive Refusal where
  /-- An instruction that has no meaning yet; no arm of `exec` answers with it. Safe. -/
  | notModelled (mnemonic : String)
  /-- The fetched bytes end before the instruction does. The fetch reads whole instructions, so no step answers with it.
  Safe. -/
  | truncatedInstruction
  deriving DecidableEq, Repr

/-- The three outcomes of executing an instruction or of a step. -/
abbrev Result := Host.Outcome State Fault Refusal

/-- All four flags clear (10_state.md R32). -/
def Flags.clear : Flags := { sign := false, nonzero := false, carry := false, overflow := false }

/-- The state after reset with the empty image (10_state.md R32, 70_reset_and_hazards.md R150, R152); with an image,
`hostReset` of Machine/HostActions.lean. -/
def State.reset : State where
  regs := Vector.replicate 16 0
  pc := Config.resetPc
  flags := Flags.clear
  mem := []
  run := .running

end Sys2Proof.Machine
end

