-- ==== Sys2Proof/Machine/Memory.lean ====
section
/-! DEFINITION. Memory: its canonical form, one byte, runs of bytes, and the bounds-checked primitives MemRead and
MemWrite (20_memory.md R34 to R42). -/

namespace Sys2Proof.Machine

/-- What an unlisted address reads as: zero, the reset value of memory (10_state.md R32). -/
def unlistedByte : Byte := 0

/-- The byte at an address. -/
def Memory.get (m : Memory) (a : Nat) : Byte :=
  match m with
  | [] => unlistedByte
  | c :: rest => if c.1 = a then c.2 else Memory.get rest a

/-- Memory with the byte at an address replaced, in canonical form. -/
def Memory.set (m : Memory) (a : Nat) (v : Byte) : Memory :=
  match m with
  | [] => if v = unlistedByte then [] else [(a, v)]
  | c :: rest =>
    if a < c.1 then (if v = unlistedByte then c :: rest else (a, v) :: c :: rest)
    else if a = c.1 then (if v = unlistedByte then rest else (a, v) :: rest)
    else c :: Memory.set rest a v

/-- The canonical form: addresses strictly rising and inside memory, no entry equal to what an unlisted address reads
as. -/
def Memory.wf (m : Memory) : Bool :=
  match m with
  | [] => true
  | c :: rest =>
    decide (c.1 < Config.memSize) && decide (c.2 ≠ unlistedByte) && rest.all (fun d => decide (c.1 < d.1))
      && Memory.wf rest

/-- The `n` bytes from an address, in address order. -/
def Memory.bytes (m : Memory) (a n : Nat) : List Byte :=
  match n with
  | 0 => []
  | k + 1 => Memory.get m a :: Memory.bytes m (a + 1) k

/-- Memory with a list of bytes written from an address on, in address order. -/
def Memory.setBytes (m : Memory) (a : Nat) (vs : List Byte) : Memory :=
  match vs with
  | [] => m
  | v :: rest => Memory.setBytes (Memory.set m a v) (a + 1) rest

/-- The little-endian 32-bit value of the four bytes from an address (20_memory.md R36). -/
def Memory.word (m : Memory) (a : Nat) : Word :=
  leWord (Memory.get m a) (Memory.get m (a + 1)) (Memory.get m (a + 2)) (Memory.get m (a + 3))

/-- The access of `n` bytes at `addr` is in range: 0 <= s(addr) and s(addr) + n - 1 <= MEM_SIZE - 1, over the integers
(20_memory.md R37). -/
def inRange (addr : Word) (n : Nat) : Bool :=
  decide (0 ≤ addr.toInt) && decide (addr.toInt + (n : Int) - 1 ≤ (Config.memSize : Int) - 1)

/-- The lowest address outside memory of an access that is not in range: its own address if that is outside, else
MEM_SIZE (20_memory.md R38, 60_exceptions.md R135). -/
def lowestOutside (addr : Word) : Word :=
  if inRange addr 1 then BitVec.ofNat 32 Config.memSize else addr

/-- OutOfBoundsAccess for an access at `addr` (60_exceptions.md R135). -/
def outOfBoundsAt (addr : Word) : Raised := { kind := .outOfBoundsAccess, info := lowestOutside addr }

/-- MemRead(addr, n) as a list of bytes in address order (20_memory.md R38). -/
def memReadBytes (m : Memory) (addr : Word) (n : Nat) : Except Raised (List Byte) :=
  if inRange addr n then .ok (Memory.bytes m addr.toNat n) else .error (outOfBoundsAt addr)

/-- MemRead(addr, 4) (20_memory.md R38). -/
def memReadWord (m : Memory) (addr : Word) : Except Raised Word :=
  if inRange addr 4 then .ok (Memory.word m addr.toNat) else .error (outOfBoundsAt addr)

/-- MemWrite(addr, 4, v): all four bytes or none (20_memory.md R39, R42). -/
def memWriteWord (m : Memory) (addr v : Word) : Except Raised Memory :=
  if inRange addr 4 then .ok (Memory.setBytes m addr.toNat (leBytes v)) else .error (outOfBoundsAt addr)

end Sys2Proof.Machine
end

