-- ==== Sys2Proof/Machine/Ops.lean ====
section
/-! DEFINITION. The named operations over registers, the instruction pointer and the run state: every meaning is written
over them. -/

namespace Sys2Proof.Machine

/-- x[r] (10_state.md R14, R17). No register is hard-wired (R16). -/
def State.reg (s : State) (r : Reg) : Word := s.regs[r.toNat]'r.isLt

/-- x[r] <- v (10_state.md R14, R16). -/
def State.setReg (s : State) (r : Reg) (v : Word) : State := { s with regs := s.regs.set r.toNat v r.isLt }

/-- pc <- pc + n, a 32-bit add (10_state.md R19, R20). -/
def State.advance (s : State) (n : Nat) : State := { s with pc := s.pc + BitVec.ofNat 32 n }

/-- pc <- target, unchecked (45_control_transfer.md R104). -/
def State.jump (s : State) (target : Word) : State := { s with pc := target }

/-- F <- f. -/
def State.setFlags (s : State) (f : Flags) : State := { s with flags := f }

/-- M <- m. -/
def State.setMem (s : State) (m : Memory) : State := { s with mem := m }

/-- run <- Halted; nothing else changes (46_dispatch_loop_halt.md R124). -/
def State.halt (s : State) : State := { s with run := .halted }

/-- Taking an exception: raise <Fault>(info). Run becomes Faulted with the record (kind, pc of the faulting instruction,
info), and nothing else changes: no handler, no vector, no saved state (60_exceptions.md R135, R136, R140). There is no
return from it (R141): only `hostReset` leaves Faulted. -/
def State.raise (s : State) (r : Raised) : State :=
  { s with run := .faulted { kind := r.kind, pc := s.pc, info := r.info } }

/-- DivisionByZero(0) (60_exceptions.md R135). -/
def divisionByZero : Raised := { kind := .divisionByZero, info := 0 }

/-- InvalidOpcode(zext_32(B0)) (30_encoding.md R63, 60_exceptions.md R135). -/
def invalidOpcode (b0 : Byte) : Raised := { kind := .invalidOpcode, info := b0.setWidth 32 }

end Sys2Proof.Machine
end

