-- ==== Sys2Proof/Machine/Params.lean ====
section
/-! DEFINITION. The parameter values in force (00_scope.md R7). The decoder, the encoder, the shared operations, and the
machine of Machine/Parametric.lean take the parameters as arguments, so that a claim can be made for every value; the
machine behind the host's interface uses these. -/

namespace Sys2Proof.Machine

/-- The OPMAP in force: the spec's default table (30_encoding.md R57). DESIGN CHOICE (log 3): unsafe for a machine with
another assignment, but for MOVI and HLT, which the source fixes. -/
def opMapInForce : Config.OpMap := Config.standardOpMap

/-- The COND table in force: COND_VALUE, the spec's default (45_control_transfer.md R108). DESIGN CHOICE (log 4):
unsafe if the machine's table is another one. -/
def condInForce : Config.CondTable := Config.condValue

/-- The SHAMT_MODE in force: low5, the spec's default (43_alu.md R94). DESIGN CHOICE (log 5): unsafe for shift amounts
outside 0 to 31 if the machine treats them otherwise. -/
def shamtInForce : Config.ShamtMode := .low5

/-- All the parameter values in force. -/
def paramsInForce : Config.Params where
  opMap := opMapInForce
  cond := condInForce
  shamt := shamtInForce

end Sys2Proof.Machine
end

