-- ==== Sys2Proof/Machine/Operands.lean ====
section
/-! DEFINITION. Operand forms computed from registers: the effective address and the shift amount. (Register fields and
immediates are read by the decoder.) -/

namespace Sys2Proof.Machine

/-- The effective address of LD and ST: wrap32(u(x[rb]) + u(x[rc])) (20_memory.md R45, 42_load_store.md R84). -/
def effAddr (s : State) (rb rc : Reg) : Word := s.reg rb + s.reg rc

/-- The shift amount of the value in the amount register (43_alu.md R94): the low five bits under low5; under the
alternative, the value itself if it is at most 31, else none. -/
def shiftAmount (mode : Config.ShamtMode) (v : Word) : Option Nat :=
  match mode with
  | .low5 => some (v.extractLsb' 0 5).toNat
  | .faultOutside0To31 => if v.toNat ≤ 31 then some v.toNat else none

end Sys2Proof.Machine
end

