-- ==== Sys2Proof/Machine/Alu.lean ====
section
/-! DEFINITION. ADD, SUB, AND, OR, XOR, SHL, SHR, SAR (43_alu.md). -/

namespace Sys2Proof.Machine

/-- A three-register ALU instruction: both sources are read, then the destination is written, no flags (43_alu.md
R88). -/
def aluOp (f : Word → Word → Word) (ra rb rc : Reg) (s : State) : Result :=
  .next ((s.setReg ra (f (s.reg rb) (s.reg rc))).advance 2)

/-- A shift: the value of rb by the amount that rc holds (43_alu.md R94). An amount that the mode leaves undefined stops
the model; under the mode in force there is none. -/
def shiftOp (mode : Config.ShamtMode) (f : Word → Nat → Word) (ra rb rc : Reg) (s : State) : Result :=
  match shiftAmount mode (s.reg rc) with
  | some n => .next ((s.setReg ra (f (s.reg rb) n)).advance 2)
  | none => .fault .shiftAmountUndefined

/-- A value shifted left, zeros in (43_alu.md R95). -/
def shlWord (a : Word) (n : Nat) : Word := a <<< n

/-- A value shifted right, zeros in (43_alu.md R96). -/
def shrWord (a : Word) (n : Nat) : Word := a >>> n

/-- A value shifted right, copies of its sign bit in (43_alu.md R97). -/
def sarWord (a : Word) (n : Nat) : Word := a.sshiftRight n

/-- ADD (43_alu.md R89). -/
def execAdd (ra rb rc : Reg) (s : State) : Result := aluOp (fun a b => a + b) ra rb rc s

/-- SUB (43_alu.md R90). -/
def execSub (ra rb rc : Reg) (s : State) : Result := aluOp (fun a b => a - b) ra rb rc s

/-- AND (43_alu.md R91). -/
def execAnd (ra rb rc : Reg) (s : State) : Result := aluOp (fun a b => a &&& b) ra rb rc s

/-- OR (43_alu.md R92). -/
def execOr (ra rb rc : Reg) (s : State) : Result := aluOp (fun a b => a ||| b) ra rb rc s

/-- XOR (43_alu.md R93). -/
def execXor (ra rb rc : Reg) (s : State) : Result := aluOp (fun a b => a ^^^ b) ra rb rc s

/-- SHL (43_alu.md R95). -/
def execShl (ra rb rc : Reg) (s : State) : Result := shiftOp shamtInForce shlWord ra rb rc s

/-- SHR (43_alu.md R96). -/
def execShr (ra rb rc : Reg) (s : State) : Result := shiftOp shamtInForce shrWord ra rb rc s

/-- SAR (43_alu.md R97). -/
def execSar (ra rb rc : Reg) (s : State) : Result := shiftOp shamtInForce sarWord ra rb rc s

end Sys2Proof.Machine
end

