-- ==== Sys2Proof/Machine/Flags.lean ====
section
/-! DEFINITION. Every flag computation: the comparison, the conditions of the conditional jumps, and the flags register
read as a number. -/

namespace Sys2Proof.Machine

/-- The flags after CMP with operands a and b: S is bit 31 of the wrapped difference, Z says that it is not zero, C and O
are not written (41_compare_flags.md R80, R81). -/
def compareFlags (f : Flags) (a b : Word) : Flags :=
  { f with sign := (a - b).msb, nonzero := decide (a - b ≠ 0) }

/-- A conditional jump is taken, by a COND table, from S and Z alone (45_control_transfer.md R107). -/
def condTaken (table : Config.CondTable) (k : Config.Cond) (f : Flags) : Bool :=
  (table.row k).eval f.sign f.nonzero

/-- F read as a 4-bit number: bit 0 is S, bit 1 is Z, bit 2 is C, bit 3 is O (10_state.md R22; DESIGN CHOICE of the
positions, log 8: only the host sees them). -/
def Flags.toNibble (f : Flags) : Nibble :=
  BitVec.ofBool f.overflow ++ BitVec.ofBool f.carry ++ BitVec.ofBool f.nonzero ++ BitVec.ofBool f.sign

end Sys2Proof.Machine
end

