-- ==== Sys2Proof/Machine/Compare.lean ====
section
/-! DEFINITION. CMP (41_compare_flags.md). -/

namespace Sys2Proof.Machine

/-- CMP (41_compare_flags.md R81). -/
def execCmp (ra rb : Reg) (s : State) : Result :=
  .next ((s.setFlags (compareFlags s.flags (s.reg ra) (s.reg rb))).advance 2)

end Sys2Proof.Machine
end

