-- ==== Sys2Proof/Machine/Control.lean ====
section
/-! DEFINITION. JMP, JMPR, the six conditional jumps, and the stubs CALL, CALLR, RET (45_control_transfer.md). -/

namespace Sys2Proof.Machine

/-- A conditional jump under a COND table: taken, pc <- imm; else pc <- pc + 5 (45_control_transfer.md R107). -/
def condJump (table : Config.CondTable) (k : Config.Cond) (imm : Word) (s : State) : Result :=
  if condTaken table k s.flags then .next (s.jump imm) else .next (s.advance 5)

/-- A call or return stub: the step completes and no state changes at all (45_control_transfer.md R115). -/
def stub (s : State) : Result := .next (s.jump s.pc)

/-- JMP (45_control_transfer.md R105). -/
def execJmp (imm : Word) (s : State) : Result := .next (s.jump imm)

/-- JMPR (45_control_transfer.md R106). -/
def execJmpr (ra : Reg) (s : State) : Result := .next (s.jump (s.reg ra))

/-- JE (45_control_transfer.md R109). -/
def execJe (imm : Word) (s : State) : Result := condJump condInForce .je imm s

/-- JNE (45_control_transfer.md R110). -/
def execJne (imm : Word) (s : State) : Result := condJump condInForce .jne imm s

/-- JG (45_control_transfer.md R111). -/
def execJg (imm : Word) (s : State) : Result := condJump condInForce .jg imm s

/-- JGE (45_control_transfer.md R112). -/
def execJge (imm : Word) (s : State) : Result := condJump condInForce .jge imm s

/-- JL (45_control_transfer.md R113). -/
def execJl (imm : Word) (s : State) : Result := condJump condInForce .jl imm s

/-- JLE (45_control_transfer.md R114). -/
def execJle (imm : Word) (s : State) : Result := condJump condInForce .jle imm s

/-- CALL: its operand is fetched and ignored (45_control_transfer.md R116). -/
def execCall (_imm : Word) (s : State) : Result := stub s

/-- CALLR: its register is ignored (45_control_transfer.md R117). -/
def execCallr (_ra : Reg) (s : State) : Result := stub s

/-- RET (45_control_transfer.md R118). -/
def execRet (s : State) : Result := stub s

end Sys2Proof.Machine
end

