-- ==== Sys2Proof/Machine/Halt.lean ====
section
/-! DEFINITION. HLT (46_dispatch_loop_halt.md R124) and the invalid opcode row (30_encoding.md R63). -/

namespace Sys2Proof.Machine

/-- HLT: run <- Halted, pc keeps the address of the HLT (46_dispatch_loop_halt.md R124). -/
def execHlt (s : State) : Result := .next s.halt

/-- An opcode byte 0xF0 to 0xFF raises InvalidOpcode(zext_32(B0)) and nothing is executed (30_encoding.md R63). -/
def execInvalid (low : Nibble) (s : State) : Result := .next (s.raise (invalidOpcode (joinNibbles 0xF#4 low)))

end Sys2Proof.Machine
end

