-- ==== Sys2Proof/Machine/LoadStore.lean ====
section
/-! DEFINITION. ST and LD (42_load_store.md). -/

namespace Sys2Proof.Machine

/-- ST: MemWrite(addr, 4, x[ra]), or OutOfBoundsAccess with nothing written (42_load_store.md R85). -/
def execSt (ra rb rc : Reg) (s : State) : Result :=
  match memWriteWord s.mem (effAddr s rb rc) (s.reg ra) with
  | .ok m => .next ((s.setMem m).advance 2)
  | .error r => .next (s.raise r)

/-- LD: x[ra] <- MemRead(addr, 4), or OutOfBoundsAccess with nothing written (42_load_store.md R86). -/
def execLd (ra rb rc : Reg) (s : State) : Result :=
  match memReadWord s.mem (effAddr s rb rc) with
  | .ok v => .next ((s.setReg ra v).advance 2)
  | .error r => .next (s.raise r)

end Sys2Proof.Machine
end

