-- ==== Sys2Proof/Machine/MoveUnary.lean ====
section
/-! DEFINITION. NOP, MOV, MOVI, NOT, NEG (40_move_unary.md). -/

namespace Sys2Proof.Machine

/-- x[ra] <- v, then pc advances by the instruction's length: the end of every one-destination instruction. -/
def writeReg (ra : Reg) (v : Word) (len : Nat) (s : State) : Result := .next ((s.setReg ra v).advance len)

/-- NOP (40_move_unary.md R75). -/
def execNop (s : State) : Result := .next (s.advance 1)

/-- MOV (40_move_unary.md R76). -/
def execMov (ra rb : Reg) (s : State) : Result := writeReg ra (s.reg rb) 2 s

/-- MOVI (40_move_unary.md R77). -/
def execMovi (ra : Reg) (imm : Word) (s : State) : Result := writeReg ra imm 5 s

/-- NOT (40_move_unary.md R78). -/
def execNot (ra rb : Reg) (s : State) : Result := writeReg ra (s.reg rb ^^^ 0xFFFFFFFF#32) 2 s

/-- NEG: wrap32(0 - s(v)) (40_move_unary.md R79). -/
def execNeg (ra rb : Reg) (s : State) : Result := writeReg ra (BitVec.ofInt 32 (0 - (s.reg rb).toInt)) 2 s

end Sys2Proof.Machine
end

