-- ==== Sys2Proof/Machine/MulDiv.lean ====
section
/-! DEFINITION. MUL and DIV (44_muldiv.md). -/

namespace Sys2Proof.Machine

/-- The first destination is written, then the second, then pc advances by 3; with equal destinations the second result
stays (44_muldiv.md R99). -/
def writePair (ra rb : Reg) (first second : Word) (s : State) : Result :=
  .next (((s.setReg ra first).setReg rb second).advance 3)

/-- The 64-bit two's-complement vector of the exact signed product (44_muldiv.md R100). -/
def product64 (a b : Word) : BitVec 64 := BitVec.ofInt 64 (a.toInt * b.toInt)

/-- wrap32 of the quotient rounded toward zero (44_muldiv.md R101, R103). -/
def quotient (a b : Word) : Word := BitVec.ofInt 32 (a.toInt.tdiv b.toInt)

/-- wrap32 of the remainder s(a) - q * s(b) (44_muldiv.md R101). -/
def remainder (a b : Word) : Word := BitVec.ofInt 32 (a.toInt - a.toInt.tdiv b.toInt * b.toInt)

/-- MUL (44_muldiv.md R100). -/
def execMul (ra rb rc rd : Reg) (s : State) : Result :=
  writePair ra rb ((product64 (s.reg rc) (s.reg rd)).extractLsb' 32 32)
    ((product64 (s.reg rc) (s.reg rd)).extractLsb' 0 32) s

/-- DIV, or DivisionByZero with neither destination written (44_muldiv.md R101). -/
def execDiv (ra rb rc rd : Reg) (s : State) : Result :=
  if s.reg rd = 0 then .next (s.raise divisionByZero)
  else writePair ra rb (quotient (s.reg rc) (s.reg rd)) (remainder (s.reg rc) (s.reg rd)) s

end Sys2Proof.Machine
end

