-- ==== Sys2Proof/Syntax.lean ====
section
/-! DEFINITION. The instructions: one constructor for each row of spec/opcode_table.json, operands in field order
(30_encoding.md R57, R59, R61). -/

namespace Sys2Proof

/-- The 30 instructions of 30_encoding.md R57 and the invalid row 0xF0 to 0xFF of R63. Operands stand in field order,
first field first (R61). -/
inductive Instr where
  /-- NOP (40_move_unary.md R75). -/
  | nop
  /-- MOV dest, src (40_move_unary.md R76). -/
  | mov (ra rb : Reg)
  /-- NOT dest, src (40_move_unary.md R78). -/
  | not (ra rb : Reg)
  /-- NEG dest, src (40_move_unary.md R79). -/
  | neg (ra rb : Reg)
  /-- CMP regA, regB (41_compare_flags.md R81). -/
  | cmp (ra rb : Reg)
  /-- MUL high dest, low dest, source, source (44_muldiv.md R100). -/
  | mul (ra rb rc rd : Reg)
  /-- DIV quotient dest, remainder dest, dividend, divisor (44_muldiv.md R101). -/
  | div (ra rb rc rd : Reg)
  /-- JMP target (45_control_transfer.md R105). -/
  | jmp (imm : Word)
  /-- JE target (45_control_transfer.md R109). -/
  | je (imm : Word)
  /-- JNE target (45_control_transfer.md R110). -/
  | jne (imm : Word)
  /-- JG target (45_control_transfer.md R111). -/
  | jg (imm : Word)
  /-- JGE target (45_control_transfer.md R112). -/
  | jge (imm : Word)
  /-- JL target (45_control_transfer.md R113). -/
  | jl (imm : Word)
  /-- JLE target (45_control_transfer.md R114). -/
  | jle (imm : Word)
  /-- CALL target, a stub (45_control_transfer.md R116). -/
  | call (imm : Word)
  /-- RET, a stub (45_control_transfer.md R118). -/
  | ret
  /-- MOVI dest, value (40_move_unary.md R77). -/
  | movi (ra : Reg) (imm : Word)
  /-- ST value, base, offset (42_load_store.md R85, 90_conflicts.md C1). -/
  | st (ra rb rc : Reg)
  /-- LD dest, base, offset (42_load_store.md R86). -/
  | ld (ra rb rc : Reg)
  /-- ADD dest, srcA, srcB (43_alu.md R89). -/
  | add (ra rb rc : Reg)
  /-- SUB dest, srcA, srcB (43_alu.md R90). -/
  | sub (ra rb rc : Reg)
  /-- AND dest, srcA, srcB (43_alu.md R91). -/
  | and (ra rb rc : Reg)
  /-- OR dest, srcA, srcB (43_alu.md R92). -/
  | or (ra rb rc : Reg)
  /-- XOR dest, srcA, srcB (43_alu.md R93). -/
  | xor (ra rb rc : Reg)
  /-- SHL dest, value, amount (43_alu.md R95). -/
  | shl (ra rb rc : Reg)
  /-- SHR dest, value, amount (43_alu.md R96). -/
  | shr (ra rb rc : Reg)
  /-- SAR dest, value, amount (43_alu.md R97). -/
  | sar (ra rb rc : Reg)
  /-- JMPR target register (45_control_transfer.md R106). -/
  | jmpr (ra : Reg)
  /-- CALLR register, a stub (45_control_transfer.md R117). -/
  | callr (ra : Reg)
  /-- HLT (46_dispatch_loop_halt.md R124). The ignored low nibble of its opcode byte is no operand (30_encoding.md
  R64): log 10. -/
  | hlt
  /-- The invalid row: an opcode byte 0xF0 to 0xFF with its low nibble, which the fault record shows (30_encoding.md
  R63). It is not one of the 30 instructions, and `Instr.wf` refuses it. -/
  | invalid (low : Nibble)
  deriving DecidableEq, Repr

end Sys2Proof
end

