-- ==== Sys2Proof/Machine/Dispatch.lean ====
section
/-! DEFINITION. The dispatcher: one meaning for each instruction (46_dispatch_loop_halt.md R121). -/

namespace Sys2Proof.Machine

/-- Applies the rule of an instruction to a state (46_dispatch_loop_halt.md R121). -/
def exec (i : Instr) (s : State) : Host.Outcome State Fault Refusal :=
  match i with
  | .nop => Sys2Proof.Machine.execNop s
  | .mov ra rb => Sys2Proof.Machine.execMov ra rb s
  | .not ra rb => Sys2Proof.Machine.execNot ra rb s
  | .neg ra rb => Sys2Proof.Machine.execNeg ra rb s
  | .cmp ra rb => Sys2Proof.Machine.execCmp ra rb s
  | .mul ra rb rc rd => Sys2Proof.Machine.execMul ra rb rc rd s
  | .div ra rb rc rd => Sys2Proof.Machine.execDiv ra rb rc rd s
  | .jmp imm => Sys2Proof.Machine.execJmp imm s
  | .je imm => Sys2Proof.Machine.execJe imm s
  | .jne imm => Sys2Proof.Machine.execJne imm s
  | .jg imm => Sys2Proof.Machine.execJg imm s
  | .jge imm => Sys2Proof.Machine.execJge imm s
  | .jl imm => Sys2Proof.Machine.execJl imm s
  | .jle imm => Sys2Proof.Machine.execJle imm s
  | .call imm => Sys2Proof.Machine.execCall imm s
  | .ret => Sys2Proof.Machine.execRet s
  | .movi ra imm => Sys2Proof.Machine.execMovi ra imm s
  | .st ra rb rc => Sys2Proof.Machine.execSt ra rb rc s
  | .ld ra rb rc => Sys2Proof.Machine.execLd ra rb rc s
  | .add ra rb rc => Sys2Proof.Machine.execAdd ra rb rc s
  | .sub ra rb rc => Sys2Proof.Machine.execSub ra rb rc s
  | .and ra rb rc => Sys2Proof.Machine.execAnd ra rb rc s
  | .or ra rb rc => Sys2Proof.Machine.execOr ra rb rc s
  | .xor ra rb rc => Sys2Proof.Machine.execXor ra rb rc s
  | .shl ra rb rc => Sys2Proof.Machine.execShl ra rb rc s
  | .shr ra rb rc => Sys2Proof.Machine.execShr ra rb rc s
  | .sar ra rb rc => Sys2Proof.Machine.execSar ra rb rc s
  | .jmpr ra => Sys2Proof.Machine.execJmpr ra s
  | .callr ra => Sys2Proof.Machine.execCallr ra s
  | .hlt => Sys2Proof.Machine.execHlt s
  | .invalid low => Sys2Proof.Machine.execInvalid low s

end Sys2Proof.Machine
end

