-- ==== Sys2Proof/WellFormed.lean ====
section
/-! DEFINITION. Well-formed instructions. Register fields and immediates are valid at every value, by their types
(30_encoding.md R62, R65); the one thing left to check is that the term is one of the 30 instructions of R57 and not the
invalid row of R63. -/

namespace Sys2Proof

/-- `i` is one of the 30 instructions of the ISA (30_encoding.md R57), not the invalid row (R63). -/
def Instr.wf (i : Instr) : Bool :=
  match i with
  | .nop => true
  | .mov _ _ => true
  | .not _ _ => true
  | .neg _ _ => true
  | .cmp _ _ => true
  | .mul _ _ _ _ => true
  | .div _ _ _ _ => true
  | .jmp _ => true
  | .je _ => true
  | .jne _ => true
  | .jg _ => true
  | .jge _ => true
  | .jl _ => true
  | .jle _ => true
  | .call _ => true
  | .ret => true
  | .movi _ _ => true
  | .st _ _ _ => true
  | .ld _ _ _ => true
  | .add _ _ _ => true
  | .sub _ _ _ => true
  | .and _ _ _ => true
  | .or _ _ _ => true
  | .xor _ _ _ => true
  | .shl _ _ _ => true
  | .shr _ _ _ => true
  | .sar _ _ _ => true
  | .jmpr _ => true
  | .callr _ => true
  | .hlt => true
  | .invalid _ => false

end Sys2Proof
end

