-- ==== Sys2Proof/Decode.lean ====
section
/-! DEFINITION. The decoder and the encoder (30_encoding.md). Each takes the parameter OPMAP (R57, decision D3) as an
argument, under a name that ends in With; the name without it is the same under the OPMAP in force (log 3). -/

namespace Sys2Proof

open Sys2Proof.Machine

/-- The instruction index of an opcode byte, by the two-tier rule (30_encoding.md R55). -/
def instrIndex (b0 : Byte) : Nat :=
  if hiNibble b0 = 0 then (loNibble b0).toNat else 15 + (hiNibble b0).toNat

/-- The seven operand-encoding shapes (30_encoding.md R53). -/
inductive Shape where
  /-- N: no operand. -/
  | noOperand
  /-- R1: one register. -/
  | oneReg
  /-- R2: two registers. -/
  | twoRegs
  /-- R3: three registers. -/
  | threeRegs
  /-- R4: four registers. -/
  | fourRegs
  /-- RI: one register and a 32-bit immediate. -/
  | regImm
  /-- I: a 32-bit immediate only. -/
  | immOnly
  deriving DecidableEq, Repr

/-- The length in bytes of each shape (30_encoding.md R53). -/
def Shape.length (sh : Shape) : Nat :=
  match sh with
  | .noOperand => 1
  | .oneReg => 1
  | .twoRegs => 2
  | .threeRegs => 2
  | .fourRegs => 3
  | .regImm => 5
  | .immOnly => 5

/-- The shape of each instruction (30_encoding.md R57, which every OPMAP keeps). -/
def shapeOf (mn : Config.Mnemonic) : Shape :=
  match mn with
  | .nop => .noOperand
  | .mov => .twoRegs
  | .not => .twoRegs
  | .neg => .twoRegs
  | .cmp => .twoRegs
  | .mul => .fourRegs
  | .div => .fourRegs
  | .jmp => .immOnly
  | .je => .immOnly
  | .jne => .immOnly
  | .jg => .immOnly
  | .jge => .immOnly
  | .jl => .immOnly
  | .jle => .immOnly
  | .call => .immOnly
  | .ret => .noOperand
  | .movi => .regImm
  | .st => .threeRegs
  | .ld => .threeRegs
  | .add => .threeRegs
  | .sub => .threeRegs
  | .and => .threeRegs
  | .or => .threeRegs
  | .xor => .threeRegs
  | .shl => .threeRegs
  | .shr => .threeRegs
  | .sar => .threeRegs
  | .jmpr => .oneReg
  | .callr => .oneReg
  | .hlt => .noOperand

/-- The shape of each instruction index 0 to 29 under an OPMAP, none outside (30_encoding.md R57). -/
def shapeOfIndexWith (m : Config.OpMap) (idx : Nat) : Option Shape := m[idx]?.map shapeOf

/-- The same under the OPMAP in force. -/
def shapeOfIndex (idx : Nat) : Option Shape := shapeOfIndexWith opMapInForce idx

/-- How many bytes the fetch reads for an opcode byte under an OPMAP: the instruction's length (30_encoding.md R67); for an
invalid opcode byte, which has no length, the opcode byte alone, since "no bytes after B0 are read" (R63). -/
def instrLengthWith (m : Config.OpMap) (b0 : Byte) : Nat :=
  match shapeOfIndexWith m (instrIndex b0) with
  | some sh => sh.length
  | none => 1

/-- The same under the OPMAP in force. -/
def instrLength (b0 : Byte) : Nat := instrLengthWith opMapInForce b0

/-- The instruction that the bytes B0 to B4 stand for under an OPMAP, total on bytes (30_encoding.md R57, R59 to R63, R69):
bytes past the instruction's length are not read. -/
def decodeBytesWith (m : Config.OpMap) (b0 b1 b2 b3 b4 : Byte) : Instr :=
  match m[instrIndex b0]? with
  | some .nop => .nop
  | some .mov => .mov (hiNibble b1) (loNibble b1)
  | some .not => .not (hiNibble b1) (loNibble b1)
  | some .neg => .neg (hiNibble b1) (loNibble b1)
  | some .cmp => .cmp (hiNibble b1) (loNibble b1)
  | some .mul => .mul (hiNibble b1) (loNibble b1) (hiNibble b2) (loNibble b2)
  | some .div => .div (hiNibble b1) (loNibble b1) (hiNibble b2) (loNibble b2)
  | some .jmp => .jmp (leWord b1 b2 b3 b4)
  | some .je => .je (leWord b1 b2 b3 b4)
  | some .jne => .jne (leWord b1 b2 b3 b4)
  | some .jg => .jg (leWord b1 b2 b3 b4)
  | some .jge => .jge (leWord b1 b2 b3 b4)
  | some .jl => .jl (leWord b1 b2 b3 b4)
  | some .jle => .jle (leWord b1 b2 b3 b4)
  | some .call => .call (leWord b1 b2 b3 b4)
  | some .ret => .ret
  | some .movi => .movi (loNibble b0) (leWord b1 b2 b3 b4)
  | some .st => .st (loNibble b0) (hiNibble b1) (loNibble b1)
  | some .ld => .ld (loNibble b0) (hiNibble b1) (loNibble b1)
  | some .add => .add (loNibble b0) (hiNibble b1) (loNibble b1)
  | some .sub => .sub (loNibble b0) (hiNibble b1) (loNibble b1)
  | some .and => .and (loNibble b0) (hiNibble b1) (loNibble b1)
  | some .or => .or (loNibble b0) (hiNibble b1) (loNibble b1)
  | some .xor => .xor (loNibble b0) (hiNibble b1) (loNibble b1)
  | some .shl => .shl (loNibble b0) (hiNibble b1) (loNibble b1)
  | some .shr => .shr (loNibble b0) (hiNibble b1) (loNibble b1)
  | some .sar => .sar (loNibble b0) (hiNibble b1) (loNibble b1)
  | some .jmpr => .jmpr (loNibble b0)
  | some .callr => .callr (loNibble b0)
  | some .hlt => .hlt
  | none => .invalid (loNibble b0)

/-- The same under the OPMAP in force. -/
def decodeBytes (b0 b1 b2 b3 b4 : Byte) : Instr := decodeBytesWith opMapInForce b0 b1 b2 b3 b4

/-- Why the decoder refuses a list of bytes. No byte value is refused (30_encoding.md R69): only a list that ends too
early. -/
inductive DecodeError where
  /-- There is no byte. -/
  | noByte
  /-- The list ends before the instruction does: its opcode byte asks for this many bytes. -/
  | truncated (needed : Nat)
  deriving DecidableEq, Repr

/-- The first instruction of a list of bytes under an OPMAP, and the bytes after it. -/
def decodeWith (m : Config.OpMap) (bs : List Byte) : Except DecodeError (Instr × List Byte) :=
  match bs with
  | [] => .error .noByte
  | b0 :: rest =>
    if rest.length + 1 < instrLengthWith m b0 then .error (.truncated (instrLengthWith m b0))
    else
      .ok (decodeBytesWith m b0 (rest.getD 0 0) (rest.getD 1 0) (rest.getD 2 0) (rest.getD 3 0),
        rest.drop (instrLengthWith m b0 - 1))

/-- The same under the OPMAP in force. -/
def decode (bs : List Byte) : Except DecodeError (Instr × List Byte) := decodeWith opMapInForce bs

/-- The opcode byte of a tier-1 instruction: high nibble 0, low nibble the index (30_encoding.md R54, R55). -/
def tier1 (idx : Nibble) : Byte := joinNibbles 0 idx

/-- The opcode byte of a tier-2 instruction: the selector above a register field (30_encoding.md R54, R55). -/
def tier2 (op : Nibble) (ra : Reg) : Byte := joinNibbles op ra

/-- The opcode nibble of a tier-1 instruction under an OPMAP: its index (30_encoding.md R55). -/
def idxNibble (m : Config.OpMap) (mn : Config.Mnemonic) : Nibble := BitVec.ofNat 4 (m.idxOf mn)

/-- The selector of a tier-2 instruction under an OPMAP: its index less 15 (30_encoding.md R55). -/
def selNibble (m : Config.OpMap) (mn : Config.Mnemonic) : Nibble := BitVec.ofNat 4 (m.idxOf mn - 15)

/-- The bytes of an instruction under an OPMAP, lowest address first (30_encoding.md R54, R57). HLT has its canonical byte
0xE0 (R64, R74); the invalid row has its one opcode byte. -/
def encodeWith (m : Config.OpMap) (i : Instr) : List Byte :=
  match i with
  | .nop => [tier1 (idxNibble m .nop)]
  | .mov ra rb => [tier1 (idxNibble m .mov), joinNibbles ra rb]
  | .not ra rb => [tier1 (idxNibble m .not), joinNibbles ra rb]
  | .neg ra rb => [tier1 (idxNibble m .neg), joinNibbles ra rb]
  | .cmp ra rb => [tier1 (idxNibble m .cmp), joinNibbles ra rb]
  | .mul ra rb rc rd => [tier1 (idxNibble m .mul), joinNibbles ra rb, joinNibbles rc rd]
  | .div ra rb rc rd => [tier1 (idxNibble m .div), joinNibbles ra rb, joinNibbles rc rd]
  | .jmp imm => tier1 (idxNibble m .jmp) :: leBytes imm
  | .je imm => tier1 (idxNibble m .je) :: leBytes imm
  | .jne imm => tier1 (idxNibble m .jne) :: leBytes imm
  | .jg imm => tier1 (idxNibble m .jg) :: leBytes imm
  | .jge imm => tier1 (idxNibble m .jge) :: leBytes imm
  | .jl imm => tier1 (idxNibble m .jl) :: leBytes imm
  | .jle imm => tier1 (idxNibble m .jle) :: leBytes imm
  | .call imm => tier1 (idxNibble m .call) :: leBytes imm
  | .ret => [tier1 (idxNibble m .ret)]
  | .movi ra imm => tier2 (selNibble m .movi) ra :: leBytes imm
  | .st ra rb rc => [tier2 (selNibble m .st) ra, joinNibbles rb rc]
  | .ld ra rb rc => [tier2 (selNibble m .ld) ra, joinNibbles rb rc]
  | .add ra rb rc => [tier2 (selNibble m .add) ra, joinNibbles rb rc]
  | .sub ra rb rc => [tier2 (selNibble m .sub) ra, joinNibbles rb rc]
  | .and ra rb rc => [tier2 (selNibble m .and) ra, joinNibbles rb rc]
  | .or ra rb rc => [tier2 (selNibble m .or) ra, joinNibbles rb rc]
  | .xor ra rb rc => [tier2 (selNibble m .xor) ra, joinNibbles rb rc]
  | .shl ra rb rc => [tier2 (selNibble m .shl) ra, joinNibbles rb rc]
  | .shr ra rb rc => [tier2 (selNibble m .shr) ra, joinNibbles rb rc]
  | .sar ra rb rc => [tier2 (selNibble m .sar) ra, joinNibbles rb rc]
  | .jmpr ra => [tier2 (selNibble m .jmpr) ra]
  | .callr ra => [tier2 (selNibble m .callr) ra]
  | .hlt => [tier2 (selNibble m .hlt) 0]
  | .invalid low => [tier2 15 low]

/-- The same under the OPMAP in force. -/
def encode (i : Instr) : List Byte := encodeWith opMapInForce i

/-- The row of the instruction table that an instruction stands in; none for the invalid row (30_encoding.md R57, R63). -/
def Instr.mnemonic (i : Instr) : Option Config.Mnemonic :=
  match i with
  | .nop => some .nop
  | .mov _ _ => some .mov
  | .not _ _ => some .not
  | .neg _ _ => some .neg
  | .cmp _ _ => some .cmp
  | .mul _ _ _ _ => some .mul
  | .div _ _ _ _ => some .div
  | .jmp _ => some .jmp
  | .je _ => some .je
  | .jne _ => some .jne
  | .jg _ => some .jg
  | .jge _ => some .jge
  | .jl _ => some .jl
  | .jle _ => some .jle
  | .call _ => some .call
  | .ret => some .ret
  | .movi _ _ => some .movi
  | .st _ _ _ => some .st
  | .ld _ _ _ => some .ld
  | .add _ _ _ => some .add
  | .sub _ _ _ => some .sub
  | .and _ _ _ => some .and
  | .or _ _ _ => some .or
  | .xor _ _ _ => some .xor
  | .shl _ _ _ => some .shl
  | .shr _ _ _ => some .shr
  | .sar _ _ _ => some .sar
  | .jmpr _ => some .jmpr
  | .callr _ => some .callr
  | .hlt => some .hlt
  | .invalid _ => none

/-- The five bytes of a table word, lowest address first: the low `nbits` bits of `w`, bit 0 the least significant bit
of the first byte, zeros above. -/
def tableBytes (nbits w : Nat) : List Byte :=
  (List.range 5).map fun k => BitVec.ofNat 8 (w % 2 ^ nbits / 2 ^ (8 * k))

/-- The instruction the decoder reads from an instruction whose bits are `w`, numbered as spec/opcode_table.json numbers
them. -/
def decodeTableWord (nbits w : Nat) : Option Instr :=
  match decode (tableBytes nbits w) with
  | .ok (i, _) => some i
  | .error _ => none

end Sys2Proof
end

