-- ==== Sys2Proof/Machine/Fetch.lean ====
section
/-! DEFINITION. Fetching and decoding the instruction at pc (46_dispatch_loop_halt.md R120, R121), the shape of a step (R122),
and placing an instruction where the next step fetches. -/

namespace Sys2Proof.Machine

/-- What fetching and decoding at pc gives. -/
inductive Fetched where
  /-- An instruction. -/
  | instr (i : Instr)
  /-- A fault, raised before anything is executed. -/
  | raised (r : Raised)
  /-- The decoder found too few bytes. -/
  | truncated
  deriving DecidableEq, Repr

/-- The bytes of the instruction at pc under an OPMAP: the opcode byte, then as many as its length asks for; the first byte outside
memory raises OutOfBoundsAccess (46_dispatch_loop_halt.md R120, steps 1, 2 and 5 to 7; 20_memory.md R46). Step 4, the
invalid opcode, is raised when the invalid row is executed: it fetches its opcode byte alone, so the order of
60_exceptions.md R139 is kept. -/
def fetchBytesWith (m : Config.OpMap) (s : State) : Except Raised (List Byte) :=
  if inRange s.pc 1 then memReadBytes s.mem s.pc (instrLengthWith m (s.mem.get s.pc.toNat))
  else .error (outOfBoundsAt s.pc)

/-- The same under the OPMAP in force. -/
def fetchBytes (s : State) : Except Raised (List Byte) := fetchBytesWith opMapInForce s

/-- The instruction at pc under an OPMAP (46_dispatch_loop_halt.md R120, R121). The fetch changes no state. -/
def fetchInstrWith (m : Config.OpMap) (s : State) : Fetched :=
  match fetchBytesWith m s with
  | .error r => .raised r
  | .ok bs =>
    match decodeWith m bs with
    | .ok (i, _) => .instr i
    | .error _ => .truncated

/-- The same under the OPMAP in force. -/
def fetchInstr (s : State) : Fetched := fetchInstrWith opMapInForce s

/-- One step under an OPMAP and the rules of the instructions: Halted and Faulted are terminal; otherwise fetch, decode, and
apply the instruction's rule (46_dispatch_loop_halt.md R122, R126). -/
def stepBy (m : Config.OpMap) (ex : Instr → State → Result) (s : State) : Result :=
  match s.run with
  | .halted => .next s
  | .faulted _ => .next s
  | .running =>
    match fetchInstrWith m s with
    | .instr i => ex i s
    | .raised r => .next (s.raise r)
    | .truncated => .refused .truncatedInstruction

/-- `s` with five bytes stored where its next step fetches: at pc, or, where five bytes do not fit in memory there, at
address 0 with pc moved to it; and running, so that the next step fetches at all (log 1). -/
def placeAtFetch (s : State) (bs : List Byte) : State :=
  if inRange s.pc 5 then { s with mem := s.mem.setBytes s.pc.toNat bs, run := .running }
  else { s with pc := 0, mem := s.mem.setBytes 0 bs, run := .running }

end Sys2Proof.Machine
end

