-- ==== Sys2Proof/Machine/Step.lean ====
section
/-! DEFINITION. The step function (46_dispatch_loop_halt.md R122). -/

namespace Sys2Proof.Machine

/-- One step of the machine under the parameter values in force (46_dispatch_loop_halt.md R122). -/
def step (s : State) : Host.Outcome State Fault Refusal := stepBy opMapInForce exec s

/-- `s` with the instruction whose bits are `w` (`nbits` of them, zeros above) stored where its next step fetches. -/
def State.withFetchWord (s : State) (nbits w : Nat) : State := placeAtFetch s (tableBytes nbits w)

end Sys2Proof.Machine
end

