-- ==== Sys2Proof/Machine/Asm.lean ====
section
/-! DEFINITION. The assembler syntax of the spec, one form for each instruction (30_encoding.md R71, R72). -/

namespace Sys2Proof.Machine

/-- A hexadecimal digit. -/
def hexDigit (n : Nibble) : String :=
  ["0", "1", "2", "3", "4", "5", "6", "7", "8", "9", "A", "B", "C", "D", "E", "F"].getD n.toNat ""

/-- An immediate in the 0x form, all eight digits (30_encoding.md R71; DESIGN CHOICE of the digits, log 14). -/
def hexWord (w : Word) : String :=
  "0x" ++ hexDigit (w.extractLsb' 28 4) ++ hexDigit (w.extractLsb' 24 4) ++ hexDigit (w.extractLsb' 20 4)
    ++ hexDigit (w.extractLsb' 16 4) ++ hexDigit (w.extractLsb' 12 4) ++ hexDigit (w.extractLsb' 8 4)
    ++ hexDigit (w.extractLsb' 4 4) ++ hexDigit (w.extractLsb' 0 4)

/-- A register name r0 to r15 (30_encoding.md R71). -/
def regName (r : Reg) : String :=
  ["r0", "r1", "r2", "r3", "r4", "r5", "r6", "r7", "r8", "r9", "r10", "r11", "r12", "r13", "r14", "r15"].getD r.toNat ""

/-- Two registers after a mnemonic. -/
def asm2 (name : String) (ra rb : Reg) : String := name ++ " " ++ regName ra ++ ", " ++ regName rb

/-- Three registers after a mnemonic. -/
def asm3 (name : String) (ra rb rc : Reg) : String := asm2 name ra rb ++ ", " ++ regName rc

/-- A register and an address in brackets after a mnemonic. -/
def asmMem (name : String) (ra rb rc : Reg) : String :=
  name ++ " " ++ regName ra ++ ", [" ++ regName rb ++ "+" ++ regName rc ++ "]"

/-- An immediate after a mnemonic. -/
def asmImm (name : String) (imm : Word) : String := name ++ " " ++ hexWord imm

/-- The text of an instruction in the spec's syntax (30_encoding.md R71). The syntax has no form for an invalid byte: it
is shown as a comment. -/
def asmText (i : Instr) : String :=
  match i with
  | .nop => "NOP"
  | .mov ra rb => asm2 "MOV" ra rb
  | .not ra rb => asm2 "NOT" ra rb
  | .neg ra rb => asm2 "NEG" ra rb
  | .cmp ra rb => asm2 "CMP" ra rb
  | .mul ra rb rc rd => asm3 "MUL" ra rb rc ++ ", " ++ regName rd
  | .div ra rb rc rd => asm3 "DIV" ra rb rc ++ ", " ++ regName rd
  | .jmp imm => asmImm "JMP" imm
  | .je imm => asmImm "JE" imm
  | .jne imm => asmImm "JNE" imm
  | .jg imm => asmImm "JG" imm
  | .jge imm => asmImm "JGE" imm
  | .jl imm => asmImm "JL" imm
  | .jle imm => asmImm "JLE" imm
  | .call imm => asmImm "CALL" imm
  | .ret => "RET"
  | .movi ra imm => "MOVI " ++ regName ra ++ ", " ++ hexWord imm
  | .st ra rb rc => asmMem "ST" ra rb rc
  | .ld ra rb rc => asmMem "LD" ra rb rc
  | .add ra rb rc => asm3 "ADD" ra rb rc
  | .sub ra rb rc => asm3 "SUB" ra rb rc
  | .and ra rb rc => asm3 "AND" ra rb rc
  | .or ra rb rc => asm3 "OR" ra rb rc
  | .xor ra rb rc => asm3 "XOR" ra rb rc
  | .shl ra rb rc => asm3 "SHL" ra rb rc
  | .shr ra rb rc => asm3 "SHR" ra rb rc
  | .sar ra rb rc => asm3 "SAR" ra rb rc
  | .jmpr ra => "JMPR " ++ regName ra
  | .callr ra => "CALLR " ++ regName ra
  | .hlt => "HLT"
  | .invalid low => "; invalid opcode byte 0xF" ++ hexDigit low

end Sys2Proof.Machine
end

