-- ==== Sys2Proof/Machine/Parametric.lean ====
section
/-! DEFINITION. The machine with its parameters as arguments (00_scope.md R7; 92_eei_decisions.md, OPEN). The machine behind
the host's interface is this one at the parameter values in force. -/

namespace Sys2Proof.Machine

/-- Applies the rule of an instruction under the parameters: COND for the conditional jumps (45_control_transfer.md R107),
SHAMT_MODE for the shifts (43_alu.md R94). No other rule reads a parameter of 00_scope.md R7. -/
def execWith (p : Config.Params) (i : Instr) (s : State) : Result :=
  match i with
  | .je imm => condJump p.cond .je imm s
  | .jne imm => condJump p.cond .jne imm s
  | .jg imm => condJump p.cond .jg imm s
  | .jge imm => condJump p.cond .jge imm s
  | .jl imm => condJump p.cond .jl imm s
  | .jle imm => condJump p.cond .jle imm s
  | .shl ra rb rc => shiftOp p.shamt shlWord ra rb rc s
  | .shr ra rb rc => shiftOp p.shamt shrWord ra rb rc s
  | .sar ra rb rc => shiftOp p.shamt sarWord ra rb rc s
  | .nop | .mov _ _ | .not _ _ | .neg _ _ | .cmp _ _ | .mul _ _ _ _ | .div _ _ _ _ | .jmp _
  | .call _ | .ret | .movi _ _ | .st _ _ _ | .ld _ _ _ | .add _ _ _ | .sub _ _ _ | .and _ _ _
  | .or _ _ _ | .xor _ _ _ | .jmpr _ | .callr _ | .hlt | .invalid _ => exec i s

/-- One step under the parameters (46_dispatch_loop_halt.md R122). -/
def stepWith (p : Config.Params) (s : State) : Result := stepBy p.opMap (execWith p) s

end Sys2Proof.Machine
end

