-- ==== Sys2Proof/Machine/HostActions.lean ====
section
/-! DEFINITION. The host's actions, each between two steps of the core (00_scope.md R9, R10; 60_exceptions.md R147). An
action that is refused answers none and leaves the core as it was. -/

namespace Sys2Proof.Machine

/-- reset(IMAGE), from any state (70_reset_and_hazards.md R150, R153): the image at address 0, everything else at its
reset value; refused when the image is longer than memory (R152). -/
def hostReset (image : List Byte) (_s : State) : Option State :=
  if image.length ≤ Config.memSize then some { State.reset with mem := Memory.setBytes [] 0 image } else none

/-- step: one step of the core (00_scope.md R10). -/
def hostStep (s : State) : Result := step s

/-- run, over a step function: steps while run is Running, for at most `fuel` steps, since the loop need not end
(46_dispatch_loop_halt.md R127, R128). -/
def runBy (stepFn : State → Result) (fuel : Nat) (s : State) : Result :=
  match fuel with
  | 0 => .next s
  | k + 1 =>
    match s.run with
    | .halted => .next s
    | .faulted _ => .next s
    | .running =>
      match stepFn s with
      | .next t => runBy stepFn k t
      | .fault r => .fault r
      | .refused r => .refused r

/-- run (00_scope.md R10). -/
def hostRun (fuel : Nat) (s : State) : Result := runBy step fuel s

/-- run under the parameters (00_scope.md R7, R10). -/
def hostRunWith (p : Config.Params) (fuel : Nat) (s : State) : Result := runBy (stepWith p) fuel s

/-- quit: the host stops issuing steps; no state of the core changes (00_scope.md R10, 10_state.md R28). -/
def hostQuit (s : State) : State := s

/-- read_reg(i); a register above 15 is refused (00_scope.md R10, 93_implementation_defined.md U16). -/
def hostReadReg (i : Nat) (s : State) : Option Word := s.regs.toList[i]?

/-- read_all_regs: all sixteen, in index order (00_scope.md R10). -/
def hostReadAllRegs (s : State) : List Word := s.regs.toList

/-- read_mem(addr, size): the bytes, or refused when the range leaves memory (60_exceptions.md R147). -/
def hostReadMem (addr : Word) (size : Nat) (s : State) : Option (List Byte) :=
  match memReadBytes s.mem addr size with
  | .ok bs => some bs
  | .error _ => none

/-- What status returns: run with the fault record, and also pc and F (00_scope.md R10, 10_state.md R33). -/
structure Status where
  run : RunState
  pc : Word
  flags : Nibble
  deriving DecidableEq, Repr

/-- status (00_scope.md R10, 10_state.md R22, R33). -/
def hostStatus (s : State) : Status := { run := s.run, pc := s.pc, flags := s.flags.toNibble }

/-- The code of a fault kind (60_exceptions.md R133). -/
def FaultKind.code (k : FaultKind) : Nat :=
  match k with
  | .outOfBoundsAccess => 1
  | .divisionByZero => 2
  | .invalidOpcode => 3

/-- One line of the trace: the instruction pointer, the raw bytes and the text of the instruction executed (30_encoding.md
R73). -/
structure TraceLine where
  pc : Word
  bytes : List Byte
  text : String
  deriving DecidableEq, Repr

/-- The trace line of the step from a state under an OPMAP: a function of the state before the step (30_encoding.md R73,
decision D25); none when no instruction is executed: the machine is not Running, or the fetch faults, or the opcode byte is
invalid. DESIGN CHOICE (log 14): an instruction whose own execution faults (LD, ST, DIV) counts as executed and has its
line; the spec does not say whether it has. -/
def hostTraceWith (m : Config.OpMap) (before : State) : Option TraceLine :=
  match before.run, fetchBytesWith m before, fetchInstrWith m before with
  | .running, .ok bs, .instr i =>
    if i.wf then some { pc := before.pc, bytes := bs, text := asmText i } else none
  | _, _, _ => none

/-- The same under the OPMAP in force. -/
def hostTrace (before : State) : Option TraceLine := hostTraceWith opMapInForce before

end Sys2Proof.Machine
end

