-- ==== Sys2Proof/Safety.lean ====
section
/-! DEFINITION. What the claims speak of: how a run ends (46_dispatch_loop_halt.md R131), the invariant of the machine, and
what an instruction leaves unchanged. -/

namespace Sys2Proof.Machine

/-- run = Faulted (10_state.md R26). -/
def State.isFaulted (s : State) : Bool :=
  match s.run with
  | .running => false
  | .halted => false
  | .faulted _ => true

/-- A run from `s` ends normally with state `t`: some number of steps leads to `t`, and `t` is Halted
(46_dispatch_loop_halt.md R131). -/
def EndsNormally (s t : State) : Prop := t.run = .halted ∧ ∃ n, hostRun n s = .next t

/-- A run from `s` has gone wrong at `t`: some number of steps leads to `t`, and `t` is Faulted
(46_dispatch_loop_halt.md R131). -/
def GoesWrong (s t : State) : Prop := t.isFaulted = true ∧ ∃ n, hostRun n s = .next t

/-- The states of the runs from a reset with some image (46_dispatch_loop_halt.md R131). -/
inductive Reachable : State → Prop where
  | reset (image : List Byte) (s t : State) (h : hostReset image s = some t) : Reachable t
  | step (s t : State) (hs : Reachable s) (h : step s = .next t) : Reachable t

/-- `a` is an address outside memory: not 0 <= s(a) <= MEM_SIZE - 1 (20_memory.md R35). -/
def OutsideMemory (a : Word) : Prop := ¬ (0 ≤ a.toInt ∧ a.toInt ≤ (Config.memSize : Int) - 1)

/-- The access of `n` bytes at `addr` lies inside memory, over the integers (20_memory.md R37). -/
def InsideMemory (addr : Word) (n : Nat) : Prop :=
  0 ≤ addr.toInt ∧ addr.toInt + (n : Int) - 1 ≤ (Config.memSize : Int) - 1

/-- The lowest outside address of an access at `addr` that does not lie inside memory (60_exceptions.md R135): `addr` itself
if it is outside, else MEM_SIZE. -/
def LowestOutside (addr a : Word) : Prop :=
  (OutsideMemory addr → a = addr) ∧ (¬ OutsideMemory addr → a = BitVec.ofNat 32 Config.memSize)

/-- The step from `s` applies the rule of instruction `i`: the machine is Running and `i` is fetched at pc
(46_dispatch_loop_halt.md R122). -/
def Runs (s : State) (i : Instr) : Prop := s.run = .running ∧ fetchInstr s = .instr i

/-- The opcode byte at pc. -/
def opcodeByte (s : State) : Byte := s.mem.get s.pc.toNat

/-- The info value of a fault record is one the kind can have (60_exceptions.md R135). -/
def InfoFits (r : FaultRecord) : Prop :=
  match r.kind with
  | .outOfBoundsAccess => OutsideMemory r.info
  | .divisionByZero => r.info = 0
  | .invalidOpcode => 0xF0 ≤ r.info.toNat ∧ r.info.toNat ≤ 0xFF

/-- The fault record of a Faulted state: its pc is the pc the state keeps, and its info fits its kind (10_state.md R27,
60_exceptions.md R135). -/
def RecordFits (s : State) : Prop :=
  match s.run with
  | .running => True
  | .halted => True
  | .faulted r => r.pc = s.pc ∧ InfoFits r

/-- The invariant of the machine: memory keeps its canonical form inside its 65536 addresses (10_state.md R29), C and O are
clear (R24), S = 1 with Z = 0 never stands (41_compare_flags.md R82), and a fault record fits (R27). -/
structure Inv (s : State) : Prop where
  mem : s.mem.wf = true
  carry : s.flags.carry = false
  overflow : s.flags.overflow = false
  signImpliesNonzero : s.flags.sign = true → s.flags.nonzero = true
  record : RecordFits s

/-- Every register but those listed reads in `t` as in `s`. -/
def KeepsRegs (s t : State) (but : List Reg) : Prop := ∀ r : Reg, r ∉ but → t.reg r = s.reg r

/-- Every byte of memory reads in `t` as in `s`. -/
def KeepsMem (s t : State) : Prop := ∀ a : Nat, t.mem.get a = s.mem.get a

/-- Every byte of memory outside the `n` bytes from `a` reads in `t` as in `s`. -/
def KeepsMemOutside (s t : State) (a n : Nat) : Prop :=
  ∀ b : Nat, (b < a ∨ a + n ≤ b) → t.mem.get b = s.mem.get b

/-- What an instruction leaves unchanged that writes the listed registers and pc and nothing else: the other registers, the
flags, memory, and the run state. -/
structure OnlyRegs (s t : State) (but : List Reg) : Prop where
  regs : KeepsRegs s t but
  flags : t.flags = s.flags
  mem : KeepsMem s t
  run : t.run = s.run

/-- The destination registers of an instruction (10_state.md R16). -/
def destRegs (i : Instr) : List Reg :=
  match i with
  | .nop => []
  | .mov ra _ => [ra]
  | .not ra _ => [ra]
  | .neg ra _ => [ra]
  | .cmp _ _ => []
  | .mul ra rb _ _ => [ra, rb]
  | .div ra rb _ _ => [ra, rb]
  | .jmp _ => []
  | .je _ => []
  | .jne _ => []
  | .jg _ => []
  | .jge _ => []
  | .jl _ => []
  | .jle _ => []
  | .call _ => []
  | .ret => []
  | .movi ra _ => [ra]
  | .st _ _ _ => []
  | .ld ra _ _ => [ra]
  | .add ra _ _ => [ra]
  | .sub ra _ _ => [ra]
  | .and ra _ _ => [ra]
  | .or ra _ _ => [ra]
  | .xor ra _ _ => [ra]
  | .shl ra _ _ => [ra]
  | .shr ra _ _ => [ra]
  | .sar ra _ _ => [ra]
  | .jmpr _ => []
  | .callr _ => []
  | .hlt => []
  | .invalid _ => []

/-- The eight three-register ALU instructions with their opcode selectors, in the order of 43_alu.md R88. -/
def aluInstrs : List ((Reg → Reg → Reg → Instr) × Nibble) :=
  [(.add, 4), (.sub, 5), (.and, 6), (.or, 7), (.xor, 8), (.shl, 9), (.shr, 10), (.sar, 11)]

/-- Conditional jump number k as an instruction (45_control_transfer.md R107). -/
def condInstr (k : Config.Cond) (imm : Word) : Instr :=
  match k with
  | .je => .je imm
  | .jne => .jne imm
  | .jg => .jg imm
  | .jge => .jge imm
  | .jl => .jl imm
  | .jle => .jle imm

/-- The number 0 to 5 of a conditional jump (45_control_transfer.md R107). -/
def condNumber (k : Config.Cond) : Nat :=
  match k with
  | .je => 0
  | .jne => 1
  | .jg => 2
  | .jge => 3
  | .jl => 4
  | .jle => 5

/-- The signed relation that a conditional jump's mnemonic names, between regA and regB of the comparison
(45_control_transfer.md R108). -/
def condRelation (k : Config.Cond) (a b : Word) : Prop :=
  match k with
  | .je => a = b
  | .jne => a ≠ b
  | .jg => b.toInt < a.toInt
  | .jge => b.toInt ≤ a.toInt
  | .jl => a.toInt < b.toInt
  | .jle => a.toInt ≤ b.toInt

/-- The formula of COND_VALUE for a conditional jump (45_control_transfer.md R108, first table, R109 to R114). -/
def condValueFormula (k : Config.Cond) (f : Flags) : Prop :=
  match k with
  | .je => f.nonzero = false
  | .jne => f.nonzero = true
  | .jg => f.sign = false ∧ f.nonzero = true
  | .jge => f.sign = false
  | .jl => f.sign = true
  | .jle => f.sign = true ∨ f.nonzero = false

/-- The formula of COND_LITERAL for a conditional jump (45_control_transfer.md R108, second table). -/
def condLiteralFormula (k : Config.Cond) (f : Flags) : Prop :=
  match k with
  | .je => f.nonzero = true
  | .jne => f.nonzero = false
  | .jg => f.sign = false ∧ f.nonzero = false
  | .jge => f.sign = false
  | .jl => f.sign = true
  | .jle => f.sign = true ∨ f.nonzero = true

end Sys2Proof.Machine
end

