-- ==== Sys2Proof/Certificates/Slice0/Obligations.lean ====
section
/-! DEFINITION. The statements for the provers. Each docstring names the rule of spec/ it comes from; where a clause rests on
a decision that the spec marks as its own (D<n> of 92_eei_decisions.md) or on a log entry, the docstring says so. -/

open Sys2Proof Sys2Proof.Machine

/-! ### Encoding -/

/-- 30_encoding.md R53: each instruction has one of the seven shapes, of 1, 1, 2, 2, 3, 5, 5 bytes; the shape of its opcode
byte fixes its length; none is 4 bytes long. Under every legal OPMAP. -/
def Obligations.EncodingLengthIsShapeLength : Prop :=
  [Shape.noOperand, .oneReg, .twoRegs, .threeRegs, .fourRegs, .regImm, .immOnly].map Shape.length = [1, 1, 2, 2, 3, 5, 5] ∧
  ∀ m : Config.OpMap, Config.LegalOpMap m → ∀ i : Instr, i.wf = true →
    ∃ b0 tail sh, encodeWith m i = b0 :: tail ∧ shapeOfIndexWith m (instrIndex b0) = some sh ∧
      (encodeWith m i).length = sh.length ∧ (encodeWith m i).length ≠ 4

/-- 30_encoding.md R55: the two-tier rule, and index 30 exactly for 0xF0 to 0xFF. -/
def Obligations.InstrIndexIsTwoTier : Prop :=
  ∀ b : Byte,
    (b.toNat / 16 = 0 → instrIndex b = b.toNat % 16) ∧
    (b.toNat / 16 ≠ 0 → instrIndex b = 15 + b.toNat / 16) ∧
    (instrIndex b ≤ 29 ↔ b.toNat < 0xF0) ∧
    (0xF0 ≤ b.toNat → instrIndex b = 30)

/-- 30_encoding.md R74, first half (derived there): decoding an encoded instruction gives it back, with the bytes after it:
under the OPMAP in force (decision D3, log 3), and under every legal one. The invalid row is among the instructions of the
statement. -/
def Obligations.DecodeOfEncode : Prop :=
  (∀ (i : Instr) (rest : List Byte), decode (encode i ++ rest) = .ok (i, rest)) ∧
  ∀ m : Config.OpMap, Config.LegalOpMap m → ∀ (i : Instr) (rest : List Byte),
    decodeWith m (encodeWith m i ++ rest) = .ok (i, rest)

/-- 30_encoding.md R74, second half (derived there): bytes that decode are the encoding of what they decode to, but for HLT
written with a nonzero low nibble, 0xE1 to 0xEF: under the OPMAP in force (decision D3, log 3), and under every legal one. -/
def Obligations.EncodeOfDecode : Prop :=
  (∀ (bs : List Byte) (i : Instr) (rest : List Byte), decode bs = .ok (i, rest) →
    bs = encode i ++ rest ∨ (i = .hlt ∧ ∃ low : Nibble, low ≠ 0 ∧ bs = joinNibbles 0xE#4 low :: rest)) ∧
  ∀ m : Config.OpMap, Config.LegalOpMap m → ∀ (bs : List Byte) (i : Instr) (rest : List Byte),
    decodeWith m bs = .ok (i, rest) →
    bs = encodeWith m i ++ rest ∨ (i = .hlt ∧ ∃ low : Nibble, low ≠ 0 ∧ bs = joinNibbles 0xE#4 low :: rest)

/-- 30_encoding.md R69 (derived there): under every OPMAP the decoder is total on bytes, and what it answers depends on the
bytes of the instruction alone. -/
def Obligations.DecodeTotalOnOwnBytes : Prop :=
  ∀ (m : Config.OpMap) (b0 : Byte) (tail more : List Byte), instrLengthWith m b0 ≤ (b0 :: tail).length →
    ∃ i, decodeWith m (b0 :: tail) = .ok (i, (b0 :: tail).drop (instrLengthWith m b0)) ∧
      decodeWith m ((b0 :: tail).take (instrLengthWith m b0) ++ more) = .ok (i, more)

/-- 30_encoding.md R63, R65 (the choice of the fault is decision D10): under every legal OPMAP the bytes 0xF0 to 0xFF, and
they alone, decode to the invalid row, which keeps the low nibble and takes no further byte (log 10). -/
def Obligations.InvalidBytesAreF0ToFF : Prop :=
  ∀ m : Config.OpMap, Config.LegalOpMap m → ∀ (b0 : Byte) (tail rest : List Byte) (i : Instr),
    decodeWith m (b0 :: tail) = .ok (i, rest) →
    (i.wf = false ↔ 0xF0 ≤ b0.toNat) ∧
    (0xF0 ≤ b0.toNat → rest = tail ∧ ∃ low : Nibble, i = .invalid low ∧ b0.toNat = 0xF0 + low.toNat)

/-- Words written out from 30_encoding.md R54, R57 and the examples of R71 and 95_test_vectors.md 2.1 decode as they should
(the opcode bytes are the default OPMAP, decision D3, log 3). -/
def Obligations.PrintedWordsDecode : Prop :=
  decode [0x10, 0x12, 0x34, 0x56, 0x78] = .ok (.movi 0 0x78563412, []) ∧
  decode [0x05, 0x56, 0x12] = .ok (.mul 5 6 1 2, []) ∧
  decode [0x2A, 0x3C] = .ok (.st 10 3 12, []) ∧
  decode [0x51, 0x12] = .ok (.sub 1 1 2, []) ∧
  decode [0x04, 0x13] = .ok (.cmp 1 3, []) ∧
  decode [0x09, 0x14, 0x00, 0x00, 0x00] = .ok (.jne 0x14, []) ∧
  decode [0xC9] = .ok (.jmpr 9, []) ∧
  decode [0xE7] = .ok (.hlt, [])

/-! ### Fetch, step, faults -/

/-- 46_dispatch_loop_halt.md R121, R122 (derived there): when the machine is Running and bytes inside memory at pc decode to
an instruction, the step is that instruction's rule applied to the state, nothing around it: in the machine, and under every
value of the parameters. -/
def Obligations.StepRunsTheDecodedInstruction : Prop :=
  (∀ (s : State) (n : Nat) (i : Instr) (rest : List Byte), s.run = .running → s.pc.toNat + n ≤ Config.memSize →
    decode (s.mem.bytes s.pc.toNat n) = .ok (i, rest) → step s = exec i s) ∧
  (∀ (p : Config.Params) (s : State) (n : Nat) (i : Instr) (rest : List Byte), s.run = .running →
    s.pc.toNat + n ≤ Config.memSize → decodeWith p.opMap (s.mem.bytes s.pc.toNat n) = .ok (i, rest) →
    stepWith p s = execWith p i s)

/-- 00_scope.md R7, in part: the machine is the parametric one at the parameter values in force (logs 3, 4, 5); of the rules
of the instructions, COND acts on the six conditional jumps alone and SHAMT_MODE on the three shifts alone. -/
def Obligations.ParametersActWhereNamed : Prop :=
  (∀ s : State, stepWith paramsInForce s = step s) ∧
  (∀ (n : Nat) (s : State), hostRunWith paramsInForce n s = hostRun n s) ∧
  (∀ (i : Instr) (s : State), execWith paramsInForce i s = exec i s) ∧
  (∀ (p : Config.Params) (k : Config.Cond) (imm : Word) (s : State),
    execWith p (condInstr k imm) s = condJump p.cond k imm s) ∧
  (∀ (p q : Config.Params) (i : Instr) (s : State), p.shamt = q.shamt → (∀ k imm, i ≠ condInstr k imm) →
    execWith p i s = execWith q i s) ∧
  (∀ (p q : Config.Params) (i : Instr) (s : State), p.cond = q.cond →
    (∀ ra rb rc, i ≠ .shl ra rb rc ∧ i ≠ .shr ra rb rc ∧ i ≠ .sar ra rb rc) → execWith p i s = execWith q i s)

/-- 46_dispatch_loop_halt.md R122, 70_reset_and_hazards.md R161 (derived there): every state has a next state; no step ends
in a model-level fault or a refusal. The same under every OPMAP and COND with SHAMT_MODE = low5 (decision D14, log 5). -/
def Obligations.StepAlwaysHasANextState : Prop :=
  (∀ s : State, ∃ t, step s = .next t) ∧
  (∀ (p : Config.Params) (s : State), p.shamt = .low5 → ∃ t, stepWith p s = .next t)

/-- 46_dispatch_loop_halt.md R126: Halted and Faulted are terminal: no step, no run of any length and no quit changes the
state, under any value of the parameters. -/
def Obligations.TerminalStatesStay : Prop :=
  ∀ s : State, s.run ≠ .running →
    step s = .next s ∧ hostStep s = .next s ∧ hostQuit s = s ∧ (∀ n, hostRun n s = .next s) ∧
      (∀ n, core.run n s = .next s) ∧
      ∀ p : Config.Params, stepWith p s = .next s ∧ ∀ n, hostRunWith p n s = .next s

/-- 46_dispatch_loop_halt.md R120 and 60_exceptions.md R139 (the faults, their info values and their order are decisions D7,
D8, D10, D19): the three fetch faults in priority order. -/
def Obligations.FetchFaultsInOrder : Prop :=
  ∀ s : State, s.run = .running →
    (OutsideMemory s.pc → step s = .next (s.raise ⟨.outOfBoundsAccess, s.pc⟩)) ∧
    (¬ OutsideMemory s.pc → 0xF0 ≤ (opcodeByte s).toNat →
      step s = .next (s.raise ⟨.invalidOpcode, (opcodeByte s).setWidth 32⟩)) ∧
    (¬ OutsideMemory s.pc → (opcodeByte s).toNat < 0xF0 → ¬ InsideMemory s.pc (instrLength (opcodeByte s)) →
      step s = .next (s.raise ⟨.outOfBoundsAccess, BitVec.ofNat 32 Config.memSize⟩))

/-- 60_exceptions.md R136 (decision D7): a fault is precise. A step from Running to Faulted changes nothing but the run
state, and the record names the pc that the state keeps. -/
def Obligations.FaultingStepChangesOnlyRun : Prop :=
  ∀ (s t : State) (r : FaultRecord), s.run = .running → step s = .next t → t.run = .faulted r →
    OnlyRegs s { t with run := s.run } [] ∧ t.pc = s.pc ∧ r.pc = s.pc

/-- 60_exceptions.md R134 (the faults themselves are decisions D7 to D10): which steps raise what, and that no other does. -/
def Obligations.StepFaultsExactlyWhenListed : Prop :=
  ∀ (s : State) (kind : FaultKind), s.run = .running →
    ((∃ t r, step s = .next t ∧ t.run = .faulted r ∧ r.kind = kind) ↔
      match kind with
      | .outOfBoundsAccess =>
        OutsideMemory s.pc ∨
        (¬ OutsideMemory s.pc ∧ ¬ InsideMemory s.pc (instrLength (opcodeByte s))) ∨
        ∃ ra rb rc, (Runs s (.ld ra rb rc) ∨ Runs s (.st ra rb rc)) ∧ ¬ InsideMemory (effAddr s rb rc) 4
      | .divisionByZero => ∃ ra rb rc rd, Runs s (.div ra rb rc rd) ∧ s.reg rd = 0
      | .invalidOpcode => ¬ OutsideMemory s.pc ∧ 0xF0 ≤ (opcodeByte s).toNat)

/-- 10_state.md R28: the transitions of run. -/
def Obligations.RunStateTransitions : Prop :=
  (∀ s t : State, s.run = .running → step s = .next t →
    (t.run = .halted ↔ fetchInstr s = .instr .hlt) ∧
    (t.isFaulted = true ↔ ∃ r, t = s.raise r) ∧
    (fetchInstr s ≠ .instr .hlt → (¬ ∃ r, t = s.raise r) → t.run = .running)) ∧
  (∀ s : State, s.run ≠ .running → step s = .next s ∧ ∀ n, hostRun n s = .next s) ∧
  (∀ (image : List Byte) (s t : State), hostReset image s = some t → t.run = .running) ∧
  (∀ s : State, (hostQuit s).run = s.run)

/-- 30_encoding.md R69 (derived there), 20_memory.md R51: what is fetched depends on pc and on the bytes that memory holds
from pc on, and on nothing else. -/
def Obligations.FetchDependsOnlyOnBytesAtPc : Prop :=
  ∀ s t : State, s.pc = t.pc → (∀ k < 5, s.mem.get (s.pc.toNat + k) = t.mem.get (s.pc.toNat + k)) →
    fetchInstr s = fetchInstr t

/-- 20_memory.md R48 (b), R51: a store over the bytes of the very next instruction is seen by its fetch. Stated for a stored
word that holds the whole instruction. -/
def Obligations.StoreIntoNextInstructionIsFetched : Prop :=
  ∀ (s : State) (ra rb rc : Reg) (i : Instr) (rest : List Byte), s.mem.wf = true → s.run = .running →
    InsideMemory (effAddr s rb rc) 4 → effAddr s rb rc = s.pc + 2 →
    decode (leBytes (s.reg ra)) = .ok (i, rest) →
    ∃ t, exec (.st ra rb rc) s = .next t ∧ step t = exec i t

/-- The loading hook of the model (log 1): the step after `withFetchWord` runs exactly the instruction that the table word
decodes to. -/
def Obligations.FetchWordRunsNext : Prop :=
  ∀ (s : State) (nbits w : Nat) (i : Instr), s.mem.wf = true → decodeTableWord nbits w = some i →
    step (s.withFetchWord nbits w) = exec i (s.withFetchWord nbits w)

/-! ### Invariant -/

/-- The invariant of the machine holds after reset, with every image (10_state.md R24, R27, R29, 41_compare_flags.md R82). -/
def Obligations.ResetMeetsTheInvariant : Prop :=
  Inv State.reset ∧ ∀ (image : List Byte) (s t : State), hostReset image s = some t → Inv t

/-- Every step keeps the invariant, from every state that meets it: memory stays canonical and inside its addresses
(10_state.md R29), C and O stay clear (R24), S without Z is never reached (41_compare_flags.md R82), and a fault record fits
its state and kind (10_state.md R27, 60_exceptions.md R135). -/
def Obligations.StepKeepsTheInvariant : Prop :=
  ∀ s t : State, Inv s → step s = .next t → Inv t

/-! ### Whole-machine rules -/

/-- 10_state.md R23: only CMP writes F, and only S and Z of it; only the six conditional jumps read F, and only S and Z of
it: every other instruction does the same whatever F holds, and what CMP writes to S and Z does not depend on F. -/
def Obligations.FlagsWrittenByCmpReadByConditionalJumps : Prop :=
  (∀ (i : Instr) (s t : State), exec i s = .next t → t.flags ≠ s.flags → ∃ ra rb, i = .cmp ra rb) ∧
  (∀ (ra rb : Reg) (s t : State), exec (.cmp ra rb) s = .next t →
    t.flags.carry = s.flags.carry ∧ t.flags.overflow = s.flags.overflow) ∧
  (∀ (i : Instr) (s t : State) (f : Flags), (∀ k imm, i ≠ condInstr k imm) → exec i s = .next t →
    ∃ t', exec i (s.setFlags f) = .next t' ∧ t'.setFlags t.flags = t) ∧
  (∀ (ra rb : Reg) (s t : State) (f : Flags), exec (.cmp ra rb) s = .next t →
    ∃ t', exec (.cmp ra rb) (s.setFlags f) = .next t' ∧
      t'.flags.sign = t.flags.sign ∧ t'.flags.nonzero = t.flags.nonzero) ∧
  (∀ (k : Config.Cond) (imm : Word) (s t : State) (f : Flags), f.sign = s.flags.sign → f.nonzero = s.flags.nonzero →
    exec (condInstr k imm) s = .next t → exec (condInstr k imm) (s.setFlags f) = .next (t.setFlags f))

/-- 10_state.md R29, in part: ST is the only instruction that changes a byte of memory. -/
def Obligations.OnlyStChangesMemory : Prop :=
  ∀ (i : Instr) (s t : State) (a : Nat), exec i s = .next t → t.mem.get a ≠ s.mem.get a → ∃ ra rb rc, i = .st ra rb rc

/-- 10_state.md R16 (derived there): an instruction changes no register but its destinations. -/
def Obligations.OnlyDestinationsChange : Prop :=
  ∀ (i : Instr) (s t : State) (q : Reg), exec i s = .next t → t.reg q ≠ s.reg q → q ∈ destRegs i

/-- 10_state.md R19, R20 (derived there): where a step runs an instruction that is no control transfer, no HLT and does not
fault, pc advances by the instruction's length without wrapping. -/
def Obligations.PcAdvancesByLengthWithoutWrap : Prop :=
  ∀ (s t : State) (i : Instr), Runs s i → step s = .next t → t.run = .running →
    (∀ imm, i ≠ .jmp imm) → (∀ ra, i ≠ .jmpr ra) → (∀ k imm, i ≠ condInstr k imm) →
    (∀ imm, i ≠ .call imm) → (∀ ra, i ≠ .callr ra) → i ≠ .ret →
    t.pc.toNat = s.pc.toNat + (encode i).length ∧ t.pc.toNat ≤ Config.memSize

/-! ### Moves and one-operand arithmetic -/

/-- 40_move_unary.md, NOP: the only state that changes is pc. -/
def Obligations.NopOnlyAdvancesPc : Prop :=
  ∀ s : State, ∃ t, exec .nop s = .next t ∧ OnlyRegs s t [] ∧ t.pc = s.pc + 1

/-- 40_move_unary.md, MOV: register ra receives the prior value of rb; no other register changes. -/
def Obligations.MovCopiesARegister : Prop :=
  ∀ (s : State) (ra rb : Reg), ∃ t, exec (.mov ra rb) s = .next t ∧ OnlyRegs s t [ra] ∧ t.reg ra = s.reg rb ∧
    t.pc = s.pc + 2

/-- 40_move_unary.md R77, MOVI, whose row of the instruction table the source fixes: the opcode byte 0x10 | ra and four
immediate bytes, low byte first, of five bytes in all; every 32-bit value is loaded; pc advances by 5; and the source's
worked example, as one step from address 0 of any Running state that holds its five bytes there. -/
def Obligations.MoviLoadsTheImmediate : Prop :=
  (∀ (ra : Reg) (imm : Word), encode (.movi ra imm) = [0x10 ||| ra.setWidth 8, imm.extractLsb' 0 8,
    imm.extractLsb' 8 8, imm.extractLsb' 16 8, imm.extractLsb' 24 8]) ∧
  (∀ (ra : Reg) (imm : Word) (rest : List Byte), decode (encode (.movi ra imm) ++ rest) = .ok (.movi ra imm, rest)) ∧
  (∀ (s : State) (ra : Reg) (imm : Word), ∃ t, exec (.movi ra imm) s = .next t ∧ OnlyRegs s t [ra] ∧ t.reg ra = imm ∧
    t.pc = s.pc + 5) ∧
  (∀ s : State, s.run = .running → s.pc = 0 → s.mem.bytes 0 5 = [0x10, 0x12, 0x34, 0x56, 0x78] →
    ∃ t, step s = .next t ∧ t.reg 0 = 0x78563412 ∧ t.pc = 5)

/-- 40_move_unary.md, NOT: every bit inverted, so s(NOT v) = -s(v) - 1. -/
def Obligations.NotInvertsEveryBit : Prop :=
  ∀ (s : State) (ra rb : Reg), ∃ t, exec (.not ra rb) s = .next t ∧ OnlyRegs s t [ra] ∧ t.pc = s.pc + 2 ∧
    (∀ k < 32, (t.reg ra).getLsbD k = !(s.reg rb).getLsbD k) ∧ (t.reg ra).toInt = -(s.reg rb).toInt - 1

/-- 40_move_unary.md, NEG: arithmetic negation, with INT_MIN the one value that wraps (the wrap at INT_MIN is decision
D15). -/
def Obligations.NegNegates : Prop :=
  ∀ (s : State) (ra rb : Reg), ∃ t, exec (.neg ra rb) s = .next t ∧ OnlyRegs s t [ra] ∧ t.pc = s.pc + 2 ∧
    (s.reg rb ≠ 0x80000000 → (t.reg ra).toInt = -(s.reg rb).toInt) ∧
    (s.reg rb = 0x80000000 → t.reg ra = 0x80000000)

/-! ### Comparison -/

/-- 41_compare_flags.md R80 and R81 (that the bits are assigned and not sticky is decision D22): CMP writes S and Z from the
wrapped difference, and nothing else but pc. -/
def Obligations.CmpWritesSignAndNonzero : Prop :=
  ∀ (s : State) (ra rb : Reg), ∃ t, exec (.cmp ra rb) s = .next t ∧
    t.flags = { s.flags with
      sign := (BitVec.ofInt 32 ((s.reg ra).toNat - (s.reg rb).toNat : Int)).getLsbD 31,
      nonzero := decide (s.reg ra ≠ s.reg rb) } ∧
    KeepsRegs s t [] ∧ KeepsMem s t ∧ t.run = s.run ∧ t.pc = s.pc + 2

/-- 41_compare_flags.md R82 (derived there): what S and Z say about the true difference. -/
def Obligations.CmpFlagsTellTheDifference : Prop :=
  ∀ (s : State) (ra rb : Reg) (D : Int), D = (s.reg ra).toInt - (s.reg rb).toInt →
    ∃ t, exec (.cmp ra rb) s = .next t ∧
      (t.flags.nonzero = true ↔ D ≠ 0) ∧
      (t.flags.sign = true ↔ (-(2 ^ 31) ≤ D ∧ D ≤ -1) ∨ 2 ^ 31 - 1 < D) ∧
      (t.flags.sign = true → t.flags.nonzero = true)

/-- 45_control_transfer.md R108 under COND_VALUE (decision D6, log 4): after a CMP whose difference does not overflow, each
conditional jump is taken exactly when the relation its mnemonic names holds. -/
def Obligations.JumpAfterCmpFollowsItsRelation : Prop :=
  ∀ (s t : State) (ra rb : Reg) (k : Config.Cond) (imm : Word), exec (.cmp ra rb) s = .next t →
    -(2 ^ 31) ≤ (s.reg ra).toInt - (s.reg rb).toInt → (s.reg ra).toInt - (s.reg rb).toInt ≤ 2 ^ 31 - 1 →
    ∃ u, exec (condInstr k imm) t = .next u ∧
      (condRelation k (s.reg ra) (s.reg rb) → u = t.jump imm) ∧
      (¬ condRelation k (s.reg ra) (s.reg rb) → u = t.advance 5)

/-! ### Load and store -/

/-- 42_load_store.md R85 (the out-of-range fault is decision D8, the wrapping address D17): ST inside memory stores the four
bytes of ra at the effective address, low byte first, and changes nothing else but pc. -/
def Obligations.StStoresFourBytes : Prop :=
  ∀ (s : State) (ra rb rc : Reg), s.mem.wf = true → InsideMemory (effAddr s rb rc) 4 →
    effAddr s rb rc = s.reg rb + s.reg rc ∧
    ∃ t, exec (.st ra rb rc) s = .next t ∧
      (∀ k < 4, t.mem.get ((effAddr s rb rc).toNat + k) = (s.reg ra).extractLsb' (8 * k) 8) ∧
      KeepsMemOutside s t (effAddr s rb rc).toNat 4 ∧ t.mem.wf = true ∧
      KeepsRegs s t [] ∧ t.flags = s.flags ∧ t.run = s.run ∧ t.pc = s.pc + 2

/-- 42_load_store.md R86 (decisions D8, D17 as for ST): LD inside memory loads the four bytes at the effective address, low
byte first, and changes nothing else but pc. -/
def Obligations.LdLoadsFourBytes : Prop :=
  ∀ (s : State) (ra rb rc : Reg), InsideMemory (effAddr s rb rc) 4 →
    effAddr s rb rc = s.reg rb + s.reg rc ∧
    ∃ t, exec (.ld ra rb rc) s = .next t ∧
      (∀ k < 4, (t.reg ra).extractLsb' (8 * k) 8 = s.mem.get ((effAddr s rb rc).toNat + k)) ∧
      OnlyRegs s t [ra] ∧ t.pc = s.pc + 2

/-- 20_memory.md R37 to R39, R42 and 60_exceptions.md R135 (decisions D7, D8): LD and ST outside memory raise
OutOfBoundsAccess with the lowest outside address, and nothing is loaded or stored. -/
def Obligations.LdStOutsideMemoryFault : Prop :=
  ∀ (s : State) (ra rb rc : Reg), ¬ InsideMemory (effAddr s rb rc) 4 →
    ∃ a, LowestOutside (effAddr s rb rc) a ∧
      exec (.ld ra rb rc) s = .next (s.raise ⟨.outOfBoundsAccess, a⟩) ∧
      exec (.st ra rb rc) s = .next (s.raise ⟨.outOfBoundsAccess, a⟩)

/-- 42_load_store.md R87 (derived there): a load returns what was stored, when nothing has touched the four bytes, the base
and the offset in between. -/
def Obligations.LoadReturnsWhatWasStored : Prop :=
  ∀ (s t u : State) (rv rd rb rc : Reg), s.mem.wf = true → InsideMemory (effAddr s rb rc) 4 →
    exec (.st rv rb rc) s = .next t →
    u.reg rb = s.reg rb → u.reg rc = s.reg rc →
    (∀ k < 4, u.mem.get ((effAddr s rb rc).toNat + k) = t.mem.get ((effAddr s rb rc).toNat + k)) →
    ∃ v, exec (.ld rd rb rc) u = .next v ∧ v.reg rd = s.reg rv

/-- 42_load_store.md R84: base and offset are symmetric. -/
def Obligations.BaseAndOffsetAreSymmetric : Prop :=
  ∀ (s : State) (ra rb rc : Reg),
    exec (.ld ra rb rc) s = exec (.ld ra rc rb) s ∧ exec (.st ra rb rc) s = exec (.st ra rc rb) s

/-! ### Three-register ALU instructions -/

/-- 43_alu.md R88: common to all eight: the encoding, both sources read before the destination is written (the result is one
function of their two prior values, for every choice of registers), no flags, no fault, pc advances by 2. -/
def Obligations.AluCommonForm : Prop :=
  ∀ p ∈ aluInstrs, ∃ f : Word → Word → Word, ∀ (s : State) (ra rb rc : Reg),
    encode (p.1 ra rb rc) = [p.2.setWidth 8 <<< 4 ||| ra.setWidth 8, joinNibbles rb rc] ∧
    ∃ t, exec (p.1 ra rb rc) s = .next t ∧ t.reg ra = f (s.reg rb) (s.reg rc) ∧ OnlyRegs s t [ra] ∧ t.pc = s.pc + 2

/-- 43_alu.md, ADD and SUB: the exact sum or difference modulo 2^32, read signed or unsigned; srcA minus srcB. -/
def Obligations.AddSubWrap : Prop :=
  ∀ (s : State) (ra rb rc : Reg),
    (∃ t, exec (.add ra rb rc) s = .next t ∧ OnlyRegs s t [ra] ∧ t.pc = s.pc + 2 ∧
      (t.reg ra).toNat = ((s.reg rb).toNat + (s.reg rc).toNat) % 2 ^ 32 ∧
      (t.reg ra).toInt = ((s.reg rb).toInt + (s.reg rc).toInt).bmod (2 ^ 32)) ∧
    (∃ t, exec (.sub ra rb rc) s = .next t ∧ OnlyRegs s t [ra] ∧ t.pc = s.pc + 2 ∧
      ((t.reg ra).toNat : Int) = ((s.reg rb).toNat - (s.reg rc).toNat : Int) % 2 ^ 32 ∧
      (t.reg ra).toInt = ((s.reg rb).toInt - (s.reg rc).toInt).bmod (2 ^ 32))

/-- 43_alu.md, AND, OR, XOR: bit by bit. -/
def Obligations.LogicIsBitwise : Prop :=
  ∀ (s : State) (ra rb rc : Reg),
    (∃ t, exec (.and ra rb rc) s = .next t ∧ OnlyRegs s t [ra] ∧ t.pc = s.pc + 2 ∧
      ∀ k < 32, (t.reg ra).getLsbD k = ((s.reg rb).getLsbD k && (s.reg rc).getLsbD k)) ∧
    (∃ t, exec (.or ra rb rc) s = .next t ∧ OnlyRegs s t [ra] ∧ t.pc = s.pc + 2 ∧
      ∀ k < 32, (t.reg ra).getLsbD k = ((s.reg rb).getLsbD k || (s.reg rc).getLsbD k)) ∧
    (∃ t, exec (.xor ra rb rc) s = .next t ∧ OnlyRegs s t [ra] ∧ t.pc = s.pc + 2 ∧
      ∀ k < 32, (t.reg ra).getLsbD k = ((s.reg rb).getLsbD k ^^ (s.reg rc).getLsbD k))

/-- 43_alu.md R94 to R97 (the amount modulo 32 is decision D14, SHAMT_MODE = low5, log 5): the shifts complete for every
amount; SHL multiplies by 2^n modulo 2^32, SHR and SAR divide by 2^n rounding down, unsigned and signed. -/
def Obligations.ShiftsMultiplyAndDivideByPowersOfTwo : Prop :=
  ∀ (s : State) (ra rb rc : Reg) (n : Nat), n = (s.reg rc).toNat % 32 →
    (∃ t, exec (.shl ra rb rc) s = .next t ∧ OnlyRegs s t [ra] ∧ t.pc = s.pc + 2 ∧
      (t.reg ra).toNat = ((s.reg rb).toNat * 2 ^ n) % 2 ^ 32) ∧
    (∃ t, exec (.shr ra rb rc) s = .next t ∧ OnlyRegs s t [ra] ∧ t.pc = s.pc + 2 ∧
      (t.reg ra).toNat = (s.reg rb).toNat / 2 ^ n) ∧
    (∃ t, exec (.sar ra rb rc) s = .next t ∧ OnlyRegs s t [ra] ∧ t.pc = s.pc + 2 ∧
      (t.reg ra).toInt = (s.reg rb).toInt / 2 ^ n)

/-- 43_alu.md R94, the alternative parameter value SHAMT_MODE = fault_outside_0_31, which is not in force (log 5): the shared
shift operation agrees with low5 for amounts up to 31 and stops the model above. -/
def Obligations.AlternativeShiftModeStopsAbove31 : Prop :=
  ∀ (f : Word → Nat → Word) (ra rb rc : Reg) (s : State),
    ((s.reg rc).toNat ≤ 31 → shiftOp .faultOutside0To31 f ra rb rc s = shiftOp .low5 f ra rb rc s) ∧
    (31 < (s.reg rc).toNat → shiftOp .faultOutside0To31 f ra rb rc s = .fault .shiftAmountUndefined)

/-! ### Multiply and divide -/

/-- 44_muldiv.md R100: with two different destinations, high half and low half together are the exact signed product. -/
def Obligations.MulGivesTheExactProduct : Prop :=
  ∀ (s : State) (ra rb rc rd : Reg), ∃ t, exec (.mul ra rb rc rd) s = .next t ∧ OnlyRegs s t [ra, rb] ∧
    t.pc = s.pc + 3 ∧
    (ra ≠ rb → (t.reg ra).toInt * 2 ^ 32 + ((t.reg rb).toNat : Int) = (s.reg rc).toInt * (s.reg rd).toInt)

/-- 44_muldiv.md R101, R103 (the remainder is decision D23, the wrap of INT_MIN / -1 decision D15): truncating division: the
division identity, a remainder smaller than the divisor and with the dividend's sign; and INT_MIN / -1. -/
def Obligations.DivTruncatesTowardZero : Prop :=
  ∀ (s : State) (ra rb rc rd : Reg), s.reg rd ≠ 0 →
    ∃ t, exec (.div ra rb rc rd) s = .next t ∧ OnlyRegs s t [ra, rb] ∧ t.pc = s.pc + 3 ∧
      (ra ≠ rb → ¬ (s.reg rc = 0x80000000 ∧ s.reg rd = 0xFFFFFFFF) →
        (s.reg rc).toInt = (t.reg ra).toInt * (s.reg rd).toInt + (t.reg rb).toInt ∧
        (t.reg rb).toInt.natAbs < (s.reg rd).toInt.natAbs ∧
        (0 ≤ (s.reg rc).toInt → 0 ≤ (t.reg rb).toInt) ∧
        ((s.reg rc).toInt ≤ 0 → (t.reg rb).toInt ≤ 0)) ∧
      (ra ≠ rb → s.reg rc = 0x80000000 → s.reg rd = 0xFFFFFFFF → t.reg ra = 0x80000000 ∧ t.reg rb = 0)

/-- 44_muldiv.md R101 (decision D9): a zero divisor raises DivisionByZero(0) whatever the dividend, and neither destination
is written. -/
def Obligations.DivByZeroFaults : Prop :=
  ∀ (s : State) (ra rb rc rd : Reg), s.reg rd = 0 →
    exec (.div ra rb rc rd) s = .next (s.raise ⟨.divisionByZero, 0⟩)

/-- 44_muldiv.md R99 (decision D16): with equal destinations the second result stays: the product modulo 2^32 for MUL, the
remainder of R101 (decision D23) for DIV: smaller than the divisor, with the dividend's sign, and different from the dividend
by a multiple of the divisor. -/
def Obligations.SecondDestinationWins : Prop :=
  ∀ (s : State) (ra rc rd : Reg),
    (∃ t, exec (.mul ra ra rc rd) s = .next t ∧
      ((t.reg ra).toNat : Int) = ((s.reg rc).toInt * (s.reg rd).toInt) % 2 ^ 32) ∧
    (s.reg rd ≠ 0 → ∃ t, exec (.div ra ra rc rd) s = .next t ∧
      (t.reg ra).toInt.natAbs < (s.reg rd).toInt.natAbs ∧
      (0 ≤ (s.reg rc).toInt → 0 ≤ (t.reg ra).toInt) ∧
      ((s.reg rc).toInt ≤ 0 → (t.reg ra).toInt ≤ 0) ∧
      ∃ q : Int, (s.reg rc).toInt = q * (s.reg rd).toInt + (t.reg ra).toInt)

/-! ### Control transfer and halt -/

/-- 45_control_transfer.md R104 to R106: a jump completes with any target, changing pc alone; if the target is outside
memory, the next step of a Running machine faults there (decisions D7, D8). -/
def Obligations.JumpsCompleteWithAnyTarget : Prop :=
  ∀ (s : State) (imm : Word) (ra : Reg),
    (∃ t, exec (.jmp imm) s = .next t ∧ OnlyRegs s t [] ∧ t.pc = imm ∧
      (s.run = .running → OutsideMemory imm → step t = .next (t.raise ⟨.outOfBoundsAccess, imm⟩))) ∧
    (∃ t, exec (.jmpr ra) s = .next t ∧ OnlyRegs s t [] ∧ t.pc = s.reg ra ∧
      (s.run = .running → OutsideMemory (s.reg ra) → step t = .next (t.raise ⟨.outOfBoundsAccess, s.reg ra⟩)))

/-- 45_control_transfer.md R107: the common form of the six conditional jumps: opcode bytes 0x08 to 0x0D, five bytes; for
every COND table the jump goes to its target exactly when the table's row for it, a function of S and Z alone, says so, and
to pc + 5 otherwise; nothing but pc changes. The instruction uses the table in force. -/
def Obligations.ConditionalJumpCommonForm : Prop :=
  ∀ (k : Config.Cond) (imm : Word),
    encode (condInstr k imm) = BitVec.ofNat 8 (8 + condNumber k) :: leBytes imm ∧
    (∀ s : State, exec (condInstr k imm) s = condJump condInForce k imm s) ∧
    (∀ (table : Config.CondTable) (s : State), ∃ t, condJump table k imm s = .next t ∧ OnlyRegs s t [] ∧
      t.pc = if (table.row k).eval s.flags.sign s.flags.nonzero then imm else s.pc + 5)

/-- 45_control_transfer.md R109 to R114 with the table in force, COND_VALUE (decision D6; the model's choice of the default
is log 4): each conditional jump follows its formula. -/
def Obligations.ConditionalJumpsFollowCondValue : Prop :=
  ∀ (k : Config.Cond) (imm : Word) (s : State), ∃ t, exec (condInstr k imm) s = .next t ∧ OnlyRegs s t [] ∧
    (condValueFormula k s.flags → t.pc = imm) ∧ (¬ condValueFormula k s.flags → t.pc = s.pc + 5)

/-- 45_control_transfer.md R108, the named alternative table (decision D6, log 4): under COND_LITERAL the shared conditional
jump follows the second table's formulas, and JGE and JL are the same in both tables. -/
def Obligations.CondLiteralFollowsItsFormulas : Prop :=
  ∀ (k : Config.Cond) (imm : Word) (s : State),
    (condLiteralFormula k s.flags → condJump Config.condLiteral k imm s = .next (s.jump imm)) ∧
    (¬ condLiteralFormula k s.flags → condJump Config.condLiteral k imm s = .next (s.advance 5)) ∧
    (k = .jge ∨ k = .jl → condJump Config.condLiteral k imm s = condJump Config.condValue k imm s)

/-- 45_control_transfer.md R115 to R118 (keeping the stubs is decision D18): CALL, CALLR and RET change no state at all, and
a Running machine that fetches one stays where it is for ever. -/
def Obligations.StubsHang : Prop :=
  (∀ (s : State) (imm : Word) (ra : Reg),
    exec (.call imm) s = .next s ∧ exec (.callr ra) s = .next s ∧ exec .ret s = .next s) ∧
  (∀ (s : State) (imm : Word) (ra : Reg) (n : Nat), (Runs s (.call imm) ∨ Runs s (.callr ra) ∨ Runs s .ret) →
    hostRun n s = .next s)

/-- 46_dispatch_loop_halt.md R124 (that pc keeps the address of the HLT is decision D11): HLT halts and changes nothing else;
every opcode byte 0xE0 to 0xEF at any address inside memory does it, whatever stands around it. -/
def Obligations.HltHaltsAtAnyAddress : Prop :=
  (∀ s : State, ∃ t, exec .hlt s = .next t ∧ t.run = .halted ∧ KeepsRegs s t [] ∧ KeepsMem s t ∧ t.flags = s.flags ∧
    t.pc = s.pc) ∧
  (∀ s : State, s.run = .running → ¬ OutsideMemory s.pc → (opcodeByte s).toNat / 16 = 0xE →
    step s = exec .hlt s)

/-- 30_encoding.md R63 (decision D10): the invalid row raises InvalidOpcode with its opcode byte, and nothing is
executed. -/
def Obligations.InvalidRowRaisesInvalidOpcode : Prop :=
  ∀ (s : State) (low : Nibble), ∃ t r, exec (.invalid low) s = .next t ∧ t.run = .faulted r ∧
    r.kind = .invalidOpcode ∧ r.pc = s.pc ∧ r.info.toNat = 0xF0 + low.toNat ∧
    KeepsRegs s t [] ∧ KeepsMem s t ∧ t.flags = s.flags ∧ t.pc = s.pc

/-! ### Reset and the host -/

/-- 10_state.md R32, 70_reset_and_hazards.md R150, R152 (RESET_PC = 0 is decision D12, log 6; refusing a longer image is
decision D26): what reset leaves, from any state. -/
def Obligations.ResetLeavesTheStatedState : Prop :=
  (∀ (image : List Byte) (s : State), image.length ≤ 65536 → ∃ t, hostReset image s = some t ∧
    (∀ q : Reg, t.reg q = 0) ∧
    t.flags = { sign := false, nonzero := false, carry := false, overflow := false } ∧
    (∀ a, a < image.length → t.mem.get a = image.getD a 0) ∧ (∀ a, image.length ≤ a → t.mem.get a = 0) ∧
    t.pc = 0 ∧ t.run = .running) ∧
  (∀ (image : List Byte) (s : State), 65536 < image.length → hostReset image s = none) ∧
  (∀ s : State, hostReset [] s = some State.reset)

/-- 70_reset_and_hazards.md R158 (derived there): the byte 0x00 is the instruction of index 0, under every value of the
parameters, and NOP where index 0 is NOP, as in the OPMAP in force (decision D3, log 3). -/
def Obligations.ZeroByteRunsTheInstructionOfIndexZero : Prop :=
  ∀ s : State, s.run = .running → ¬ OutsideMemory s.pc → opcodeByte s = 0 →
    step s = .next (s.advance 1) ∧
    ∀ p : Config.Params,
      (p.opMap[0]? = some .nop → stepWith p s = .next (s.advance 1)) ∧
      (InsideMemory s.pc (instrLengthWith p.opMap 0) →
        ∃ i, i.mnemonic = p.opMap[0]? ∧ fetchInstrWith p.opMap s = .instr i ∧ stepWith p s = execWith p i s)

/-- 70_reset_and_hazards.md R158 (derived there) and program P9: with the empty image, from RESET_PC = 0 (decision D12, log
6), the machine runs NOPs through all of memory and then faults at MEM_SIZE; it does not wrap. It rests on index 0 = NOP
(decision D3, log 3), and holds under every value of the parameters that has it. -/
def Obligations.EmptyImageRunsOffTheTop : Prop :=
  (∀ n, n ≤ 65536 → hostRun n State.reset = .next { State.reset with pc := BitVec.ofNat 32 n }) ∧
  hostRun 65537 State.reset =
    .next (State.raise { State.reset with pc := 0x10000 } ⟨.outOfBoundsAccess, 0x10000⟩) ∧
  ∀ p : Config.Params, p.opMap[0]? = some .nop →
    (∀ n, n ≤ 65536 → hostRunWith p n State.reset = .next { State.reset with pc := BitVec.ofNat 32 n }) ∧
    hostRunWith p 65537 State.reset =
      .next (State.raise { State.reset with pc := 0x10000 } ⟨.outOfBoundsAccess, 0x10000⟩)

/-- 00_scope.md R10, 10_state.md R22 and R33, 60_exceptions.md R147 (the flag positions are decision D13, log 8; that a
read of zero bytes is judged by the same range rule is the model's choice, log 17): what the host reads. -/
def Obligations.HostReadsWhatTheStateHolds : Prop :=
  (∀ (s : State) (q : Reg), hostReadReg q.toNat s = some (s.reg q) ∧ (hostReadAllRegs s)[q.toNat]? = some (s.reg q)) ∧
  (∀ (s : State) (k : Nat), 15 < k → hostReadReg k s = none) ∧
  (∀ (s : State) (addr : Word) (n : Nat), InsideMemory addr n →
    ∃ bs, hostReadMem addr n s = some bs ∧ bs.length = n ∧ ∀ k < n, bs.getD k 0 = s.mem.get (addr.toNat + k)) ∧
  (∀ (s : State) (addr : Word) (n : Nat), ¬ InsideMemory addr n → hostReadMem addr n s = none) ∧
  (∀ s : State, (hostStatus s).run = s.run ∧ (hostStatus s).pc = s.pc ∧
    (hostStatus s).flags.getLsbD 0 = s.flags.sign ∧ (hostStatus s).flags.getLsbD 1 = s.flags.nonzero ∧
    (hostStatus s).flags.getLsbD 2 = s.flags.carry ∧ (hostStatus s).flags.getLsbD 3 = s.flags.overflow)
end

