-- ==== Sys2Proof/Laws/Bytes.lean ====
section
/-! SUPPORT. Nibbles and byte order: splitting undoes joining, and joining undoes splitting. -/

namespace Sys2Proof.Machine

@[simp] theorem hiNibble_joinNibbles (h l : Nibble) : hiNibble (joinNibbles h l) = h := by
  revert h l; decide

@[simp] theorem loNibble_joinNibbles (h l : Nibble) : loNibble (joinNibbles h l) = l := by
  revert h l; decide

@[simp] theorem joinNibbles_hi_lo (b : Byte) : joinNibbles (hiNibble b) (loNibble b) = b := by
  revert b; decide

@[simp] theorem leWord_leBytes (v : Word) : leWord (byteOf v 0) (byteOf v 1) (byteOf v 2) (byteOf v 3) = v := by
  apply BitVec.eq_of_getLsbD_eq
  intro i hi
  simp only [leWord, byteOf, BitVec.getLsbD_append, BitVec.getLsbD_extractLsb']
  by_cases h0 : i < 8
  · simp [h0]
  · by_cases h1 : i - 8 < 8
    · simp [h0, h1]; congr 1; omega
    · by_cases h2 : i - 8 - 8 < 8
      · simp [h0, h1, h2]; congr 1; omega
      · have h3 : i - 8 - 8 - 8 < 8 := by omega
        simp [h0, h1, h2, h3]; congr 1; omega

@[simp] theorem byteOf_leWord_zero (b0 b1 b2 b3 : Byte) : byteOf (leWord b0 b1 b2 b3) 0 = b0 := by
  apply BitVec.eq_of_getLsbD_eq
  intro i hi
  simp only [leWord, byteOf, BitVec.getLsbD_append, BitVec.getLsbD_extractLsb']
  simp [hi]

@[simp] theorem byteOf_leWord_one (b0 b1 b2 b3 : Byte) : byteOf (leWord b0 b1 b2 b3) 1 = b1 := by
  apply BitVec.eq_of_getLsbD_eq
  intro i hi
  simp only [leWord, byteOf, BitVec.getLsbD_append, BitVec.getLsbD_extractLsb']
  simp [hi]

@[simp] theorem byteOf_leWord_two (b0 b1 b2 b3 : Byte) : byteOf (leWord b0 b1 b2 b3) 2 = b2 := by
  apply BitVec.eq_of_getLsbD_eq
  intro i hi
  have h : ¬ 16 + i < 8 := by omega
  have h1 : ¬ 16 + i - 8 < 8 := by omega
  have h2 : 16 + i - 8 - 8 < 8 := by omega
  simp only [leWord, byteOf, BitVec.getLsbD_append, BitVec.getLsbD_extractLsb']
  simp [hi, h, h1, h2]; congr 1; omega

@[simp] theorem byteOf_leWord_three (b0 b1 b2 b3 : Byte) : byteOf (leWord b0 b1 b2 b3) 3 = b3 := by
  apply BitVec.eq_of_getLsbD_eq
  intro i hi
  have h : ¬ 24 + i < 8 := by omega
  have h1 : ¬ 24 + i - 8 < 8 := by omega
  have h2 : ¬ 24 + i - 8 - 8 < 8 := by omega
  have h3 : 24 + i - 8 - 8 - 8 < 8 := by omega
  simp only [leWord, byteOf, BitVec.getLsbD_append, BitVec.getLsbD_extractLsb']
  simp [hi, h, h1, h2, h3]; congr 1; omega

@[simp] theorem leBytes_length (v : Word) : (leBytes v).length = 4 := rfl

@[simp] theorem hiNibble_tier1 (n : Nibble) : hiNibble (tier1 n) = 0 := hiNibble_joinNibbles 0 n

@[simp] theorem loNibble_tier1 (n : Nibble) : loNibble (tier1 n) = n := loNibble_joinNibbles 0 n

@[simp] theorem hiNibble_tier2 (op : Nibble) (r : Reg) : hiNibble (tier2 op r) = op := hiNibble_joinNibbles op r

@[simp] theorem loNibble_tier2 (op : Nibble) (r : Reg) : loNibble (tier2 op r) = r := loNibble_joinNibbles op r

/-- Tier 1: the index is the low nibble (30_encoding.md R55). -/
theorem instrIndex_tier1 (n : Nibble) : instrIndex (tier1 n) = n.toNat := by simp [instrIndex]

/-- Tier 2: the index is 15 plus the selector (30_encoding.md R55). -/
theorem instrIndex_tier2 (op : Nibble) (r : Reg) (h : op ≠ 0) : instrIndex (tier2 op r) = 15 + op.toNat := by
  rw [instrIndex, hiNibble_tier2, if_neg h]

/-- An instruction index is at most 30 (30_encoding.md R55). -/
theorem instrIndex_le (b : Byte) : instrIndex b ≤ 30 := by
  revert b; decide

end Sys2Proof.Machine
end

