-- ==== Sys2Proof/Laws/OpMap.lean ====
section
/-! SUPPORT. Legal OPMAPs: every mnemonic has one index, in its tier, and the opcode byte written from it resolves back to
that index (30_encoding.md R55 to R57). -/

namespace Sys2Proof.Config.LegalOpMap

variable {m : OpMap} (h : LegalOpMap m) (mn : Mnemonic) {k : Nat}

include h

theorem length : m.length = 30 := h.perm.length_eq

theorem nodup : m.Nodup := h.perm.nodup_iff.2 (by decide)

theorem mem : mn ∈ m := h.perm.mem_iff.2 (by cases mn <;> decide)

/-- The table holds a mnemonic at its index. -/
theorem at_idxOf : m[m.idxOf mn]? = some mn := List.getElem?_idxOf (h.mem mn)

theorem idxOf_lt : m.idxOf mn < 30 := h.length ▸ List.idxOf_lt_length_of_mem (h.mem mn)

/-- A mnemonic stands at one index only. -/
theorem idxOf_eq {mn : Mnemonic} (hk : m[k]? = some mn) : m.idxOf mn = k := by
  obtain ⟨hlt, rfl⟩ := List.getElem?_eq_some_iff.1 hk
  exact h.nodup.idxOf_getElem k hlt

/-- The index of a mnemonic lies in its tier (30_encoding.md R56). -/
theorem tier_idxOf : mn.inTier2 = true ↔ 16 ≤ m.idxOf mn := h.tier _ _ (h.at_idxOf mn)

/-- Every index 0 to 29 names an instruction. -/
theorem exists_at (hk : k < 30) : ∃ mn, m[k]? = some mn :=
  ⟨m[k]'(h.length.symm ▸ hk), List.getElem?_eq_getElem _⟩

/-- Index 30 names none. -/
theorem at_ge (hk : 30 ≤ k) : m[k]? = none := List.getElem?_eq_none (h.length ▸ hk)

end Sys2Proof.Config.LegalOpMap

namespace Sys2Proof

open Sys2Proof.Config Sys2Proof.Machine

/-- The spec's default OPMAP is legal (30_encoding.md R57). -/
theorem legal_standardOpMap : LegalOpMap standardOpMap where
  perm := .refl _
  tier k mn hk := by
    obtain ⟨hlt, -⟩ := List.getElem?_eq_some_iff.1 hk
    have hlt : k < 30 := hlt
    interval_cases k <;> cases hk <;> decide
  movi := rfl
  hlt := rfl

/-- The OPMAP in force is legal. -/
theorem legal_opMapInForce : LegalOpMap opMapInForce := legal_standardOpMap

variable {m : OpMap} (h : LegalOpMap m) {mn : Mnemonic}

include h

/-- A tier-1 opcode byte resolves to the mnemonic it was written for (30_encoding.md R55). -/
theorem instrIndex_idxNibble (ht : mn.inTier2 = false) : m[instrIndex (tier1 (idxNibble m mn))]? = some mn := by
  have hlt : m.idxOf mn < 16 := by
    have := h.tier_idxOf mn
    rw [ht] at this
    simpa using this
  rw [instrIndex_tier1, idxNibble, BitVec.toNat_ofNat, Nat.mod_eq_of_lt (by omega)]
  exact h.at_idxOf mn

/-- A tier-2 opcode byte resolves to the mnemonic it was written for, whatever its register field (30_encoding.md R55). -/
theorem instrIndex_selNibble (ht : mn.inTier2 = true) (r : Reg) :
    m[instrIndex (tier2 (selNibble m mn) r)]? = some mn := by
  have hge := (h.tier_idxOf mn).1 ht
  have hlt := h.idxOf_lt mn
  have hn : (selNibble m mn).toNat = m.idxOf mn - 15 := by
    rw [selNibble, BitVec.toNat_ofNat, Nat.mod_eq_of_lt (by omega)]
  rw [instrIndex_tier2 _ _ (fun e => by rw [e] at hn; simp at hn; omega), hn, Nat.add_sub_cancel' (by omega)]
  exact h.at_idxOf mn

omit h

/-- An opcode byte is a tier-1 or a tier-2 one (30_encoding.md R55). -/
theorem byte_tiers (b : Byte) : b = tier1 (loNibble b) ∧ instrIndex b < 16 ∨
    b = tier2 (hiNibble b) (loNibble b) ∧ 16 ≤ instrIndex b ∧ (hiNibble b).toNat = instrIndex b - 15 := by
  revert b; decide

include h

/-- A byte whose index names a tier-1 instruction is that instruction's opcode byte. -/
theorem eq_tier1_of_at {b : Byte} (hb : m[instrIndex b]? = some mn) (ht : mn.inTier2 = false) :
    b = tier1 (idxNibble m mn) := by
  have hk := (h.tier _ _ hb).not
  rw [ht] at hk
  have hlt : instrIndex b < 16 := by simpa using hk
  rcases byte_tiers b with ⟨e, -⟩ | ⟨-, hge, -⟩
  · rw [idxNibble, h.idxOf_eq hb, e, instrIndex_tier1, BitVec.ofNat_toNat, BitVec.setWidth_eq]
  · omega

/-- A byte whose index names a tier-2 instruction is that instruction's opcode byte with the byte's low nibble. -/
theorem eq_tier2_of_at {b : Byte} (hb : m[instrIndex b]? = some mn) (ht : mn.inTier2 = true) :
    b = tier2 (selNibble m mn) (loNibble b) := by
  have hge := (h.tier _ _ hb).1 ht
  rcases byte_tiers b with ⟨-, hlt⟩ | ⟨e, -, hn⟩
  · omega
  · rw [selNibble, h.idxOf_eq hb, ← hn, BitVec.ofNat_toNat, BitVec.setWidth_eq]
    exact e

end Sys2Proof
end

