-- ==== Sys2Proof/Laws/Decode.lean ====
section
/-! SUPPORT. The decoder and the encoder under any OPMAP: what they answer, that no byte past the instruction's length is
read, and the decoder under the map in force. -/

namespace Sys2Proof

open Sys2Proof.Machine

/-- The length in bytes that the fetch reads where the table has this entry. -/
def lengthOfEntry (e : Option Config.Mnemonic) : Nat :=
  match e with
  | some mn => (shapeOf mn).length
  | none => 1

theorem instrLengthWith_eq (m : Config.OpMap) (b0 : Byte) : instrLengthWith m b0 = lengthOfEntry m[instrIndex b0]? := by
  unfold instrLengthWith shapeOfIndexWith lengthOfEntry
  cases m[instrIndex b0]? <;> rfl

theorem instrLengthWith_of_at {m : Config.OpMap} {b0 : Byte} {mn : Config.Mnemonic} (h : m[instrIndex b0]? = some mn) :
    instrLengthWith m b0 = (shapeOf mn).length := by rw [instrLengthWith_eq, h]; rfl

/-- An instruction is 1 to 5 bytes long, and none is 4 bytes long (30_encoding.md R53). -/
theorem lengthOfEntry_bounds (e : Option Config.Mnemonic) : 1 ≤ lengthOfEntry e ∧ lengthOfEntry e ≤ 5 ∧ lengthOfEntry e ≠ 4 := by
  rcases e with _ | mn
  · decide
  · cases mn <;> decide

theorem instrLengthWith_bounds (m : Config.OpMap) (b0 : Byte) : 1 ≤ instrLengthWith m b0 ∧ instrLengthWith m b0 ≤ 5 := by
  have := lengthOfEntry_bounds m[instrIndex b0]?
  rw [instrLengthWith_eq]
  omega

/-- Bytes past the instruction's length do not matter (30_encoding.md R69). -/
theorem decodeBytesWith_congr (m : Config.OpMap) (b0 b1 b2 b3 b4 c1 c2 c3 c4 : Byte)
    (h1 : 2 ≤ instrLengthWith m b0 → b1 = c1) (h2 : 3 ≤ instrLengthWith m b0 → b2 = c2)
    (h3 : 4 ≤ instrLengthWith m b0 → b3 = c3) (h4 : 5 ≤ instrLengthWith m b0 → b4 = c4) :
    decodeBytesWith m b0 b1 b2 b3 b4 = decodeBytesWith m b0 c1 c2 c3 c4 := by
  rw [instrLengthWith_eq] at h1 h2 h3 h4
  unfold decodeBytesWith
  generalize m[instrIndex b0]? = e at *
  rcases e with _ | mn
  · rfl
  · cases mn <;> simp_all [lengthOfEntry, shapeOf, Shape.length]

/-- The opcode byte's index selects the row of the table that is decoded (30_encoding.md R55, R57). -/
theorem mnemonic_decodeBytesWith (m : Config.OpMap) (b0 b1 b2 b3 b4 : Byte) :
    (decodeBytesWith m b0 b1 b2 b3 b4).mnemonic = m[instrIndex b0]? := by
  unfold decodeBytesWith
  rcases m[instrIndex b0]? with _ | mn
  · rfl
  · cases mn <;> rfl

/-- A decoded instruction's encoding is as long as its opcode byte says. -/
theorem encodeWith_decodeBytesWith_length (m m' : Config.OpMap) (b0 b1 b2 b3 b4 : Byte) :
    (encodeWith m' (decodeBytesWith m b0 b1 b2 b3 b4)).length = instrLengthWith m b0 := by
  rw [instrLengthWith_eq]
  unfold decodeBytesWith
  rcases m[instrIndex b0]? with _ | mn
  · rfl
  · cases mn <;> rfl

/-- What the decoder answers, once: an instruction exactly when there is a byte and the list is long enough. -/
theorem decodeWith_ok_iff (m : Config.OpMap) (bs : List Byte) (i : Instr) (rest : List Byte) :
    decodeWith m bs = .ok (i, rest) ↔
      ∃ b0 tail, bs = b0 :: tail ∧ instrLengthWith m b0 ≤ bs.length ∧
        i = decodeBytesWith m b0 (tail.getD 0 0) (tail.getD 1 0) (tail.getD 2 0) (tail.getD 3 0) ∧
        rest = bs.drop (instrLengthWith m b0) := by
  cases bs with
  | nil => simp [decodeWith]
  | cons b0 tail =>
    obtain ⟨k, hk⟩ : ∃ k, instrLengthWith m b0 = k + 1 :=
      ⟨instrLengthWith m b0 - 1, by have := instrLengthWith_bounds m b0; omega⟩
    simp only [decodeWith]
    split
    · rename_i h
      constructor
      · intro e; cases e
      · rintro ⟨b, t, e, hl, -, -⟩
        cases e
        simp only [List.length_cons] at hl
        omega
    · rename_i h
      constructor
      · intro e
        simp only [Except.ok.injEq, Prod.mk.injEq] at e
        refine ⟨b0, tail, rfl, ?_, e.1.symm, ?_⟩
        · simp only [List.length_cons]; omega
        · rw [← e.2, hk]; rfl
      · rintro ⟨b, t, e, hl, hi, hr⟩
        cases e
        rw [hi, hr, hk]; rfl

/-- The decoder answers the same on the instruction's own bytes alone (30_encoding.md R69). -/
theorem decodeWith_take (m : Config.OpMap) (b0 : Byte) (tail : List Byte) (i : Instr) (rest : List Byte)
    (h : decodeWith m (b0 :: tail) = .ok (i, rest)) :
    decodeWith m ((b0 :: tail).take (instrLengthWith m b0)) = .ok (i, []) := by
  obtain ⟨b, t, e, hl, hi, -⟩ := (decodeWith_ok_iff _ _ _ _).1 h
  cases e
  obtain ⟨k, hk⟩ : ∃ k, instrLengthWith m b0 = k + 1 :=
    ⟨instrLengthWith m b0 - 1, by have := instrLengthWith_bounds m b0; omega⟩
  simp only [List.length_cons] at hl
  refine (decodeWith_ok_iff _ _ _ _).2 ⟨b0, tail.take k, by rw [hk]; rfl, ?_, ?_, ?_⟩
  · simp; omega
  · rw [hi]
    apply decodeBytesWith_congr <;> intro hh <;> simp only [List.getD_eq_getElem?_getD, List.getElem?_take] <;>
      rw [if_pos (by omega)]
  · simp

/-! ### Under the OPMAP in force -/

theorem decode_ok_iff (bs : List Byte) (i : Instr) (rest : List Byte) :
    decode bs = .ok (i, rest) ↔
      ∃ b0 tail, bs = b0 :: tail ∧ instrLength b0 ≤ bs.length ∧
        i = decodeBytes b0 (tail.getD 0 0) (tail.getD 1 0) (tail.getD 2 0) (tail.getD 3 0) ∧
        rest = bs.drop (instrLength b0) := decodeWith_ok_iff opMapInForce bs i rest

theorem decode_take (b0 : Byte) (tail : List Byte) (i : Instr) (rest : List Byte)
    (h : decode (b0 :: tail) = .ok (i, rest)) : decode ((b0 :: tail).take (instrLength b0)) = .ok (i, []) :=
  decodeWith_take opMapInForce b0 tail i rest h

theorem instrLength_bounds (b0 : Byte) : 1 ≤ instrLength b0 ∧ instrLength b0 ≤ 5 :=
  instrLengthWith_bounds opMapInForce b0

theorem encode_decodeBytes_length (b0 b1 b2 b3 b4 : Byte) :
    (encode (decodeBytes b0 b1 b2 b3 b4)).length = instrLength b0 :=
  encodeWith_decodeBytesWith_length opMapInForce opMapInForce b0 b1 b2 b3 b4

end Sys2Proof
end

