-- ==== Sys2Proof/Laws/Memory.lean ====
section
/-! SUPPORT. Memory: a read after a write, and every memory operation keeps the canonical form. -/

namespace Sys2Proof.Machine

/-- What the canonical form says of a list with a head. -/
theorem wf_cons (c : Host.Cell) (m : Memory) :
    Memory.wf (c :: m) = true ↔
      c.1 < Config.memSize ∧ c.2 ≠ unlistedByte ∧ (∀ d ∈ m, c.1 < d.1) ∧ Memory.wf m = true := by
  simp [Memory.wf, and_assoc]

/-- An address that no entry lists reads as an unlisted one. -/
theorem get_unlisted (m : Memory) (a : Nat) (h : ∀ d ∈ m, d.1 ≠ a) : m.get a = unlistedByte := by
  induction m with
  | nil => rfl
  | cons c m ih =>
    have hc : c.1 ≠ a := h c (by simp)
    simpa [Memory.get, hc] using ih (fun d hd => h d (by simp [hd]))

/-- Every entry of a memory after a write is the written one or an old one. -/
theorem mem_set (m : Memory) (a : Nat) (v : Byte) (d : Host.Cell) (h : d ∈ m.set a v) :
    (d = (a, v) ∧ v ≠ unlistedByte) ∨ d ∈ m := by
  induction m with
  | nil =>
    by_cases hv : v = unlistedByte <;> simp [Memory.set, hv] at h
    exact .inl ⟨h, hv⟩
  | cons c m ih =>
    simp only [Memory.set] at h
    split at h
    · split at h
      · exact .inr h
      · rename_i hv
        rcases List.mem_cons.1 h with h | h
        · exact .inl ⟨h, hv⟩
        · exact .inr h
    · split at h
      · split at h
        · exact .inr (List.mem_cons_of_mem _ h)
        · rename_i hv
          rcases List.mem_cons.1 h with h | h
          · exact .inl ⟨h, hv⟩
          · exact .inr (List.mem_cons_of_mem _ h)
      · rcases List.mem_cons.1 h with h | h
        · exact .inr (by simp [h])
        · rcases ih h with h | h
          · exact .inl h
          · exact .inr (List.mem_cons_of_mem _ h)

/-- A byte of a memory with a first entry. -/
theorem get_cons (c : Host.Cell) (m : Memory) (b : Nat) :
    Memory.get (c :: m) b = if b = c.1 then c.2 else m.get b := by
  simp only [Memory.get, eq_comm]

/-- A byte read after a byte written, in a canonical memory. -/
theorem get_set (m : Memory) (a : Nat) (v : Byte) (h : m.wf = true) (b : Nat) :
    (m.set a v).get b = if b = a then v else m.get b := by
  induction m with
  | nil =>
    by_cases hv : v = unlistedByte
    · simp [Memory.set, Memory.get, hv]
    · simp [Memory.set, hv, get_cons]
  | cons c m ih =>
    obtain ⟨-, -, hlt, hw⟩ := (wf_cons c m).1 h
    have hnone : ∀ x, x ≤ c.1 → Memory.get m x = unlistedByte := fun x hx =>
      get_unlisted m x fun d hd => by have := hlt d hd; omega
    simp only [Memory.set]
    rcases Nat.lt_trichotomy a c.1 with h1 | h1 | h1
    · rw [if_pos h1]
      by_cases hv : v = unlistedByte
      · rw [if_pos hv]
        by_cases hb : b = a
        · have hne : a ≠ c.1 := by omega
          rw [if_pos hb, hb, get_cons, if_neg hne, hnone a (by omega), hv]
        · rw [if_neg hb]
      · rw [if_neg hv, get_cons]
    · rw [if_neg (by omega), if_pos h1]
      by_cases hv : v = unlistedByte
      · rw [if_pos hv]
        by_cases hb : b = a
        · rw [if_pos hb, hb, hnone a (by omega), hv]
        · rw [if_neg hb, get_cons, if_neg (by omega)]
      · rw [if_neg hv, get_cons]
        by_cases hb : b = a
        · rw [if_pos hb, if_pos hb]
        · rw [if_neg hb, if_neg hb, get_cons, if_neg (by omega)]
    · rw [if_neg (by omega), if_neg (by omega), get_cons, get_cons, ih hw]
      by_cases hb : b = c.1
      · rw [if_pos hb, if_pos hb, if_neg (by omega)]
      · rw [if_neg hb, if_neg hb]

/-- Writing a byte at an address of memory keeps the canonical form. -/
theorem wf_set (m : Memory) (a : Nat) (v : Byte) (h : m.wf = true) (ha : a < Config.memSize) : (m.set a v).wf = true := by
  induction m with
  | nil =>
    by_cases hv : v = unlistedByte
    · simp [Memory.set, hv, Memory.wf]
    · have : (a, v) :: [] = ([(a, v)] : Memory) := rfl
      simpa [Memory.set, hv, wf_cons, Memory.wf] using ha
  | cons c m ih =>
    obtain ⟨hc, hz, hlt, hw⟩ := (wf_cons c m).1 h
    simp only [Memory.set]
    split
    · rename_i h1
      split
      · exact h
      · rename_i hv
        refine (wf_cons _ _).2 ⟨ha, hv, ?_, h⟩
        intro d hd
        rcases List.mem_cons.1 hd with rfl | hd
        · exact h1
        · have := hlt d hd; simp only; omega
    · split
      · rename_i h1 h2
        split
        · exact hw
        · rename_i hv
          refine (wf_cons _ _).2 ⟨ha, hv, ?_, hw⟩
          intro d hd
          have := hlt d hd
          simp only; omega
      · rename_i h1 h2
        refine (wf_cons _ _).2 ⟨hc, hz, ?_, ih hw⟩
        intro d hd
        rcases mem_set m a v d hd with ⟨rfl, -⟩ | hd
        · simp only; omega
        · exact hlt d hd

/-- Writing bytes inside memory keeps the canonical form. -/
theorem wf_setBytes (vs : List Byte) (m : Memory) (a : Nat) (h : m.wf = true) (ha : a + vs.length ≤ Config.memSize) :
    (m.setBytes a vs).wf = true := by
  induction vs generalizing m a with
  | nil => exact h
  | cons v vs ih =>
    simp only [List.length_cons] at ha
    exact ih (m.set a v) (a + 1) (wf_set m a v h (by omega)) (by omega)

/-- A byte read after bytes written inside memory, in a canonical memory. -/
theorem get_setBytes (vs : List Byte) (m : Memory) (a : Nat) (h : m.wf = true) (ha : a + vs.length ≤ Config.memSize)
    (b : Nat) :
    (m.setBytes a vs).get b = if a ≤ b ∧ b < a + vs.length then vs.getD (b - a) 0 else m.get b := by
  induction vs generalizing m a with
  | nil =>
    have : ¬ (a ≤ b ∧ b < a + ([] : List Byte).length) := by simp
    rw [if_neg this]; rfl
  | cons v vs ih =>
    simp only [List.length_cons] at ha
    simp only [Memory.setBytes]
    rw [ih (m.set a v) (a + 1) (wf_set m a v h (by omega)) (by omega), get_set m a v h b]
    simp only [List.length_cons]
    by_cases hb : b = a
    · subst hb; simp
    · by_cases hin : a + 1 ≤ b ∧ b < a + 1 + vs.length
      · have h2 : a ≤ b ∧ b < a + (vs.length + 1) := by omega
        rw [if_pos hin, if_pos h2]
        obtain ⟨k, rfl⟩ : ∃ k, b = a + 1 + k := ⟨b - (a + 1), by omega⟩
        have e1 : a + 1 + k - a = k + 1 := by omega
        have e2 : a + 1 + k - (a + 1) = k := by omega
        simp [e1, e2]
      · have h2 : ¬ (a ≤ b ∧ b < a + (vs.length + 1)) := by omega
        rw [if_neg hin, if_neg h2, if_neg hb]

@[simp] theorem bytes_length (m : Memory) (a n : Nat) : (m.bytes a n).length = n := by
  induction n generalizing a with
  | zero => rfl
  | succ n ih => simp [Memory.bytes, ih]

/-- The bytes of a run of memory, one by one. -/
theorem bytes_getD (m : Memory) (a n k : Nat) (h : k < n) : (m.bytes a n).getD k 0 = m.get (a + k) := by
  induction n generalizing a k with
  | zero => omega
  | succ n ih =>
    cases k with
    | zero => simp [Memory.bytes]
    | succ k =>
      have := ih (a + 1) k (by omega)
      have e : a + 1 + k = a + (k + 1) := by omega
      simpa [Memory.bytes, e] using this

/-- A run of memory whose bytes read as a list's is that list. -/
theorem bytes_eq_of_get (m : Memory) (a : Nat) (vs : List Byte) (h : ∀ k < vs.length, m.get (a + k) = vs.getD k 0) :
    m.bytes a vs.length = vs := by
  induction vs generalizing a with
  | nil => rfl
  | cons v vs ih =>
    have h0 : m.get a = v := by simpa using h 0 (by simp)
    have ht : m.bytes (a + 1) vs.length = vs := ih (a + 1) fun k hk => by
      have := h (k + 1) (by simp; omega)
      have e : a + (k + 1) = a + 1 + k := by omega
      rw [e] at this
      simpa using this
    simp only [List.length_cons, Memory.bytes, h0, ht]

/-- Bytes just written are the bytes read back. -/
theorem bytes_setBytes_self (vs : List Byte) (m : Memory) (a : Nat) (h : m.wf = true)
    (ha : a + vs.length ≤ Config.memSize) : (m.setBytes a vs).bytes a vs.length = vs :=
  bytes_eq_of_get _ a vs fun k hk => by
    rw [get_setBytes vs m a h ha, if_pos (by omega)]
    congr 1
    omega

/-- The first bytes of a run of memory are a shorter run. -/
theorem take_bytes (m : Memory) (a k n : Nat) (h : k ≤ n) : (m.bytes a n).take k = m.bytes a k := by
  induction k generalizing a n with
  | zero => simp [Memory.bytes]
  | succ k ih =>
    cases n with
    | zero => omega
    | succ n => simpa [Memory.bytes] using ih (a + 1) n (by omega)

/-- The range test as a statement about the unsigned address (20_memory.md R35, R37). -/
theorem inRange_iff (addr : Word) (n : Nat) (hn : n ≤ 65536) :
    inRange addr n = true ↔ addr.toNat + n ≤ Config.memSize := by
  have hlt := addr.isLt
  have hm : Config.memSize = 65536 := rfl
  simp only [inRange, Bool.and_eq_true, decide_eq_true_eq, BitVec.toInt_eq_toNat_cond, hm]
  split <;> omega

/-- What MemRead of a word does, once: a word in range, or OutOfBoundsAccess (20_memory.md R38). -/
theorem memReadWord_cases (m : Memory) (addr : Word) :
    (inRange addr 4 = true ∧ memReadWord m addr = .ok (m.word addr.toNat)) ∨
    (inRange addr 4 = false ∧ memReadWord m addr = .error (outOfBoundsAt addr)) := by
  unfold memReadWord
  cases inRange addr 4 <;> simp

/-- What MemWrite does, once: all four bytes in range, or OutOfBoundsAccess (20_memory.md R39). -/
theorem memWriteWord_cases (m : Memory) (addr v : Word) :
    (inRange addr 4 = true ∧ memWriteWord m addr v = .ok (m.setBytes addr.toNat (leBytes v))) ∨
    (inRange addr 4 = false ∧ memWriteWord m addr v = .error (outOfBoundsAt addr)) := by
  unfold memWriteWord
  cases inRange addr 4 <;> simp

/-- A word read where a word was written is the word written (42_load_store.md R87). -/
theorem word_setBytes_self (m : Memory) (a : Nat) (v : Word) (h : m.wf = true) (ha : a + 4 ≤ Config.memSize) :
    (m.setBytes a (leBytes v)).word a = v := by
  have hl : a + (leBytes v).length ≤ Config.memSize := by simpa using ha
  simp only [Memory.word, get_setBytes (leBytes v) m a h hl, leBytes_length]
  simp [leBytes]

end Sys2Proof.Machine
end

