-- ==== Sys2Proof/Laws/State.lean ====
section
/-! SUPPORT. One lemma for each field of State under each update, so that no proof unfolds a record update. -/

namespace Sys2Proof.Machine

variable (s : State) (r : Reg) (v : Word) (n : Nat) (f : Flags) (m : Memory) (e : Raised)

@[simp] theorem setReg_pc : (s.setReg r v).pc = s.pc := rfl
@[simp] theorem setReg_flags : (s.setReg r v).flags = s.flags := rfl
@[simp] theorem setReg_mem : (s.setReg r v).mem = s.mem := rfl
@[simp] theorem setReg_run : (s.setReg r v).run = s.run := rfl

@[simp] theorem advance_regs : (s.advance n).regs = s.regs := rfl
@[simp] theorem advance_pc : (s.advance n).pc = s.pc + BitVec.ofNat 32 n := rfl
@[simp] theorem advance_flags : (s.advance n).flags = s.flags := rfl
@[simp] theorem advance_mem : (s.advance n).mem = s.mem := rfl
@[simp] theorem advance_run : (s.advance n).run = s.run := rfl
@[simp] theorem advance_reg : (s.advance n).reg r = s.reg r := rfl

@[simp] theorem jump_regs : (s.jump v).regs = s.regs := rfl
@[simp] theorem jump_pc : (s.jump v).pc = v := rfl
@[simp] theorem jump_flags : (s.jump v).flags = s.flags := rfl
@[simp] theorem jump_mem : (s.jump v).mem = s.mem := rfl
@[simp] theorem jump_run : (s.jump v).run = s.run := rfl
@[simp] theorem jump_reg : (s.jump v).reg r = s.reg r := rfl
@[simp] theorem jump_self : s.jump s.pc = s := rfl

@[simp] theorem setFlags_regs : (s.setFlags f).regs = s.regs := rfl
@[simp] theorem setFlags_pc : (s.setFlags f).pc = s.pc := rfl
@[simp] theorem setFlags_flags : (s.setFlags f).flags = f := rfl
@[simp] theorem setFlags_mem : (s.setFlags f).mem = s.mem := rfl
@[simp] theorem setFlags_run : (s.setFlags f).run = s.run := rfl
@[simp] theorem setFlags_reg : (s.setFlags f).reg r = s.reg r := rfl

@[simp] theorem setMem_regs : (s.setMem m).regs = s.regs := rfl
@[simp] theorem setMem_pc : (s.setMem m).pc = s.pc := rfl
@[simp] theorem setMem_flags : (s.setMem m).flags = s.flags := rfl
@[simp] theorem setMem_mem : (s.setMem m).mem = m := rfl
@[simp] theorem setMem_run : (s.setMem m).run = s.run := rfl
@[simp] theorem setMem_reg : (s.setMem m).reg r = s.reg r := rfl

@[simp] theorem halt_regs : s.halt.regs = s.regs := rfl
@[simp] theorem halt_pc : s.halt.pc = s.pc := rfl
@[simp] theorem halt_flags : s.halt.flags = s.flags := rfl
@[simp] theorem halt_mem : s.halt.mem = s.mem := rfl
@[simp] theorem halt_run : s.halt.run = .halted := rfl
@[simp] theorem halt_reg : s.halt.reg r = s.reg r := rfl

@[simp] theorem raise_regs : (s.raise e).regs = s.regs := rfl
@[simp] theorem raise_pc : (s.raise e).pc = s.pc := rfl
@[simp] theorem raise_flags : (s.raise e).flags = s.flags := rfl
@[simp] theorem raise_mem : (s.raise e).mem = s.mem := rfl
@[simp] theorem raise_run : (s.raise e).run = .faulted { kind := e.kind, pc := s.pc, info := e.info } := rfl
@[simp] theorem raise_reg : (s.raise e).reg r = s.reg r := rfl

/-- A register just written reads as written (10_state.md R16). -/
@[simp] theorem setReg_reg_self : (s.setReg r v).reg r = v := by simp [State.reg, State.setReg]

/-- Writing a register leaves every other register alone. -/
theorem setReg_reg_ne (q : Reg) (h : q ≠ r) : (s.setReg r v).reg q = s.reg q := by
  have hn : r.toNat ≠ q.toNat := fun e => h (BitVec.eq_of_toNat_eq e.symm)
  simp [State.reg, State.setReg, hn]

/-- A register read after a write, in one equation. -/
theorem setReg_reg (q : Reg) : (s.setReg r v).reg q = if q = r then v else s.reg q := by
  by_cases h : q = r
  · subst h; simp
  · simp [h, setReg_reg_ne s r v q h]

/-- Two states with the same registers, pc, flags, memory and run state are one. -/
theorem state_ext (t : State) (hr : ∀ q : Reg, t.reg q = s.reg q) (hp : t.pc = s.pc) (hf : t.flags = s.flags)
    (hm : t.mem = s.mem) (hu : t.run = s.run) : t = s := by
  cases s; cases t
  simp only [State.mk.injEq] at *
  refine ⟨?_, hp, hf, hm, hu⟩
  apply Vector.ext
  intro i hi
  have h := hr (BitVec.ofNat 4 i)
  have e : (BitVec.ofNat 4 i).toNat = i := by simp; omega
  simpa [State.reg, e] using h

end Sys2Proof.Machine
end

