-- ==== Sys2Proof/Laws/Ops.lean ====
section
/-! SUPPORT. One lemma for each shared operation that says once everything it can do. -/

namespace Sys2Proof.Machine

theorem writeReg_next (ra : Reg) (v : Word) (len : Nat) (s : State) :
    writeReg ra v len s = .next ((s.setReg ra v).advance len) := rfl

theorem aluOp_next (f : Word → Word → Word) (ra rb rc : Reg) (s : State) :
    aluOp f ra rb rc s = .next ((s.setReg ra (f (s.reg rb) (s.reg rc))).advance 2) := rfl

/-- Under low5 a shift always completes, with the low five bits of the amount register (43_alu.md R94). -/
theorem shiftOp_low5 (f : Word → Nat → Word) (ra rb rc : Reg) (s : State) :
    shiftOp .low5 f ra rb rc s =
      .next ((s.setReg ra (f (s.reg rb) ((s.reg rc).extractLsb' 0 5).toNat)).advance 2) := rfl

/-- Under the alternative a shift stops exactly for an amount above 31 (43_alu.md R94). -/
theorem shiftOp_fault_cases (f : Word → Nat → Word) (ra rb rc : Reg) (s : State) :
    ((s.reg rc).toNat ≤ 31 ∧ shiftOp .faultOutside0To31 f ra rb rc s =
      .next ((s.setReg ra (f (s.reg rb) (s.reg rc).toNat)).advance 2)) ∨
    (31 < (s.reg rc).toNat ∧ shiftOp .faultOutside0To31 f ra rb rc s = .fault .shiftAmountUndefined) := by
  by_cases h : (s.reg rc).toNat ≤ 31
  · exact .inl ⟨h, by simp [shiftOp, shiftAmount, h]⟩
  · exact .inr ⟨by omega, by simp [shiftOp, shiftAmount, h]⟩

theorem writePair_next (ra rb : Reg) (first second : Word) (s : State) :
    writePair ra rb first second s = .next (((s.setReg ra first).setReg rb second).advance 3) := rfl

/-- A conditional jump goes to its target or past itself (45_control_transfer.md R107). -/
theorem condJump_cases (table : Config.CondTable) (k : Config.Cond) (imm : Word) (s : State) :
    (condTaken table k s.flags = true ∧ condJump table k imm s = .next (s.jump imm)) ∨
    (condTaken table k s.flags = false ∧ condJump table k imm s = .next (s.advance 5)) := by
  unfold condJump
  cases condTaken table k s.flags <;> simp

/-- A stub answers the state it was given (45_control_transfer.md R115). -/
theorem stub_next (s : State) : stub s = .next s := rfl

/-- LD loads a word in range, or raises OutOfBoundsAccess (42_load_store.md R86). -/
theorem execLd_cases (ra rb rc : Reg) (s : State) :
    (inRange (effAddr s rb rc) 4 = true ∧
      execLd ra rb rc s = .next ((s.setReg ra (s.mem.word (effAddr s rb rc).toNat)).advance 2)) ∨
    (inRange (effAddr s rb rc) 4 = false ∧
      execLd ra rb rc s = .next (s.raise (outOfBoundsAt (effAddr s rb rc)))) := by
  rcases memReadWord_cases s.mem (effAddr s rb rc) with ⟨h, e⟩ | ⟨h, e⟩ <;> simp [execLd, h, e]

/-- ST stores a word in range, or raises OutOfBoundsAccess (42_load_store.md R85). -/
theorem execSt_cases (ra rb rc : Reg) (s : State) :
    (inRange (effAddr s rb rc) 4 = true ∧
      execSt ra rb rc s =
        .next ((s.setMem (s.mem.setBytes (effAddr s rb rc).toNat (leBytes (s.reg ra)))).advance 2)) ∨
    (inRange (effAddr s rb rc) 4 = false ∧
      execSt ra rb rc s = .next (s.raise (outOfBoundsAt (effAddr s rb rc)))) := by
  rcases memWriteWord_cases s.mem (effAddr s rb rc) (s.reg ra) with ⟨h, e⟩ | ⟨h, e⟩ <;> simp [execSt, h, e]

/-- DIV writes its two destinations, or raises DivisionByZero (44_muldiv.md R101). -/
theorem execDiv_cases (ra rb rc rd : Reg) (s : State) :
    (s.reg rd ≠ 0 ∧ execDiv ra rb rc rd s =
      writePair ra rb (quotient (s.reg rc) (s.reg rd)) (remainder (s.reg rc) (s.reg rd)) s) ∨
    (s.reg rd = 0 ∧ execDiv ra rb rc rd s = .next (s.raise divisionByZero)) := by
  by_cases h : s.reg rd = 0
  · exact .inr ⟨h, by simp [execDiv, h]⟩
  · exact .inl ⟨h, by rw [execDiv, if_neg h]⟩

/-- The info value of OutOfBoundsAccess is an address outside memory (60_exceptions.md R135). -/
theorem outOfBoundsAt_outside (addr : Word) : inRange (outOfBoundsAt addr).info 1 = false := by
  simp only [outOfBoundsAt, lowestOutside]
  split
  · decide
  · rename_i h; simpa using h

end Sys2Proof.Machine
end

