-- ==== Sys2Proof/Laws/Fetch.lean ====
section
/-! SUPPORT. The fetch and the step, under any parameters and under those in force: what they can do, said once. -/

namespace Sys2Proof.Machine

/-- Whole instructions decode: the fetch's bytes are never too few. -/
theorem decodeWith_own_bytes (m : Config.OpMap) (mem : Memory) (a : Nat) :
    ∃ i, decodeWith m (mem.bytes a (instrLengthWith m (mem.get a))) = .ok (i, []) := by
  have hb := instrLengthWith_bounds m (mem.get a)
  obtain ⟨k, hk⟩ : ∃ k, instrLengthWith m (mem.get a) = k + 1 := ⟨instrLengthWith m (mem.get a) - 1, by omega⟩
  refine ⟨_, (decodeWith_ok_iff _ _ _ _).2 ⟨mem.get a, mem.bytes (a + 1) k, by rw [hk]; rfl, ?_, rfl, ?_⟩⟩
  · simp
  · rw [List.drop_eq_nil_of_le]; simp

/-- What the fetch can do, once: the opcode byte is outside memory; the instruction ends outside memory; or it is fetched
and decoded (46_dispatch_loop_halt.md R120). -/
theorem fetchInstrWith_cases (m : Config.OpMap) (s : State) :
    (inRange s.pc 1 = false ∧ fetchInstrWith m s = .raised (outOfBoundsAt s.pc)) ∨
    (inRange s.pc 1 = true ∧ inRange s.pc (instrLengthWith m (s.mem.get s.pc.toNat)) = false ∧
      fetchInstrWith m s = .raised (outOfBoundsAt s.pc)) ∨
    (inRange s.pc 1 = true ∧ inRange s.pc (instrLengthWith m (s.mem.get s.pc.toNat)) = true ∧
      ∃ i, decodeWith m (s.mem.bytes s.pc.toNat (instrLengthWith m (s.mem.get s.pc.toNat))) = .ok (i, []) ∧
        fetchInstrWith m s = .instr i) := by
  cases h1 : inRange s.pc 1
  · exact .inl ⟨rfl, by simp [fetchInstrWith, fetchBytesWith, h1]⟩
  · cases h2 : inRange s.pc (instrLengthWith m (s.mem.get s.pc.toNat))
    · exact .inr (.inl ⟨rfl, rfl, by simp [fetchInstrWith, fetchBytesWith, memReadBytes, h1, h2]⟩)
    · obtain ⟨i, hi⟩ := decodeWith_own_bytes m s.mem s.pc.toNat
      exact .inr (.inr ⟨rfl, rfl, i, hi, by simp [fetchInstrWith, fetchBytesWith, memReadBytes, h1, h2, hi]⟩)

/-- What a step can do, once: nothing when the machine is Halted or Faulted; raise the fetch's fault; or run the fetched
instruction (46_dispatch_loop_halt.md R122). -/
theorem stepBy_cases (m : Config.OpMap) (ex : Instr → State → Result) (s : State) :
    (s.run ≠ .running ∧ stepBy m ex s = .next s) ∨
    (s.run = .running ∧ ∃ r, fetchInstrWith m s = .raised r ∧ stepBy m ex s = .next (s.raise r)) ∨
    (s.run = .running ∧ ∃ i, fetchInstrWith m s = .instr i ∧ stepBy m ex s = ex i s) := by
  cases h : s.run with
  | halted => exact .inl ⟨by simp, by simp [stepBy, h]⟩
  | faulted r => exact .inl ⟨by simp, by simp [stepBy, h]⟩
  | running =>
    rcases fetchInstrWith_cases m s with ⟨-, e⟩ | ⟨-, -, e⟩ | ⟨-, -, i, -, e⟩
    · exact .inr (.inl ⟨rfl, _, e, by simp [stepBy, h, e]⟩)
    · exact .inr (.inl ⟨rfl, _, e, by simp [stepBy, h, e]⟩)
    · exact .inr (.inr ⟨rfl, i, e, by simp [stepBy, h, e]⟩)

/-- A Running machine that fetches an instruction runs it. -/
theorem stepBy_of_instr (m : Config.OpMap) (ex : Instr → State → Result) (s : State) (i : Instr) (hr : s.run = .running)
    (hf : fetchInstrWith m s = .instr i) : stepBy m ex s = ex i s := by simp [stepBy, hr, hf]

/-- A Running machine whose fetch raises a fault is Faulted. -/
theorem stepBy_of_raised (m : Config.OpMap) (ex : Instr → State → Result) (s : State) (r : Raised)
    (hr : s.run = .running) (hf : fetchInstrWith m s = .raised r) : stepBy m ex s = .next (s.raise r) := by
  simp [stepBy, hr, hf]

/-! ### Under the OPMAP in force -/

theorem step_of_instr (s : State) (i : Instr) (hr : s.run = .running) (hf : fetchInstr s = .instr i) :
    step s = exec i s := stepBy_of_instr opMapInForce exec s i hr hf

theorem step_of_raised (s : State) (r : Raised) (hr : s.run = .running) (hf : fetchInstr s = .raised r) :
    step s = .next (s.raise r) := stepBy_of_raised opMapInForce exec s r hr hf

theorem fetchInstr_cases (s : State) :
    (inRange s.pc 1 = false ∧ fetchInstr s = .raised (outOfBoundsAt s.pc)) ∨
    (inRange s.pc 1 = true ∧ inRange s.pc (instrLength (s.mem.get s.pc.toNat)) = false ∧
      fetchInstr s = .raised (outOfBoundsAt s.pc)) ∨
    (inRange s.pc 1 = true ∧ inRange s.pc (instrLength (s.mem.get s.pc.toNat)) = true ∧
      ∃ i, decode (s.mem.bytes s.pc.toNat (instrLength (s.mem.get s.pc.toNat))) = .ok (i, []) ∧
        fetchInstr s = .instr i) := fetchInstrWith_cases opMapInForce s

theorem step_cases (s : State) :
    (s.run ≠ .running ∧ step s = .next s) ∨
    (s.run = .running ∧ ∃ r, fetchInstr s = .raised r ∧ step s = .next (s.raise r)) ∨
    (s.run = .running ∧ ∃ i, fetchInstr s = .instr i ∧ step s = exec i s) := stepBy_cases opMapInForce exec s

end Sys2Proof.Machine
end

