-- ==== Sys2Proof/Laws/Exec.lean ====
section
/-! SUPPORT. What applying an instruction's rule can do, said once, so that a rule about every instruction needs no unfolding
of a meaning. -/

namespace Sys2Proof.Machine

/-- Registers written one after the other. -/
def setRegs (s : State) (ws : List (Reg × Word)) : State := ws.foldl (fun u p => u.setReg p.1 p.2) s

theorem setRegs_facts (ws : List (Reg × Word)) (s : State) :
    (setRegs s ws).pc = s.pc ∧ (setRegs s ws).flags = s.flags ∧ (setRegs s ws).mem = s.mem ∧
      (setRegs s ws).run = s.run ∧ ∀ q, q ∉ ws.map Prod.fst → (setRegs s ws).reg q = s.reg q := by
  induction ws generalizing s with
  | nil => exact ⟨rfl, rfl, rfl, rfl, fun _ _ => rfl⟩
  | cons p ws ih =>
    obtain ⟨a, b, c, d, e⟩ := ih (s.setReg p.1 p.2)
    refine ⟨a, b, c, d, fun q hq => ?_⟩
    simp only [List.map_cons, List.mem_cons, not_or] at hq
    exact (e q hq.2).trans (setReg_reg_ne _ _ _ _ hq.1)

/-- The next states that an instruction's rule can answer. -/
inductive Effect (i : Instr) (s : State) : State → Prop where
  /-- LD or ST outside memory. -/
  | raiseAccess (ra rb rc : Reg) (hi : i = .ld ra rb rc ∨ i = .st ra rb rc)
      (h : inRange (effAddr s rb rc) 4 = false) : Effect i s (s.raise (outOfBoundsAt (effAddr s rb rc)))
  /-- DIV by zero. -/
  | raiseDiv (ra rb rc rd : Reg) (hi : i = .div ra rb rc rd) (h : s.reg rd = 0) : Effect i s (s.raise divisionByZero)
  /-- The invalid row. -/
  | raiseInvalid (low : Nibble) (hi : i = .invalid low) :
      Effect i s (s.raise (invalidOpcode (joinNibbles 0xF#4 low)))
  /-- HLT. -/
  | halt (hi : i = .hlt) : Effect i s s.halt
  /-- An instruction that writes its destination registers, if any, and falls through. -/
  | regs (ws : List (Reg × Word)) (hd : ws.map Prod.fst = destRegs i) (hh : i ≠ .hlt)
      (hc : ∀ ra rb, i ≠ .cmp ra rb) (hs : ∀ ra rb rc, i ≠ .st ra rb rc) (hj : ∀ k imm, i ≠ condInstr k imm) :
      Effect i s ((setRegs s ws).advance (encode i).length)
  /-- CMP. -/
  | cmp (ra rb : Reg) (hi : i = .cmp ra rb) :
      Effect i s ((s.setFlags (compareFlags s.flags (s.reg ra) (s.reg rb))).advance (encode i).length)
  /-- ST inside memory. -/
  | st (ra rb rc : Reg) (hi : i = .st ra rb rc) (h : inRange (effAddr s rb rc) 4 = true) :
      Effect i s ((s.setMem (s.mem.setBytes (effAddr s rb rc).toNat (leBytes (s.reg ra)))).advance (encode i).length)
  /-- A jump, or a stub, which jumps to itself. -/
  | jump (target : Word) (hi : (∃ imm, i = .jmp imm) ∨ (∃ ra, i = .jmpr ra) ∨ (∃ imm, i = .call imm) ∨
      (∃ ra, i = .callr ra) ∨ i = .ret) : Effect i s (s.jump target)
  /-- A conditional jump that is taken. -/
  | taken (k : Config.Cond) (imm : Word) (hi : i = condInstr k imm) (h : condTaken condInForce k s.flags = true) :
      Effect i s (s.jump imm)
  /-- A conditional jump that is not taken. -/
  | notTaken (k : Config.Cond) (imm : Word) (hi : i = condInstr k imm) (h : condTaken condInForce k s.flags = false) :
      Effect i s (s.advance 5)

/-- The meaning of a conditional jump, by its number. -/
theorem exec_condInstr (k : Config.Cond) (imm : Word) (s : State) :
    exec (condInstr k imm) s = condJump condInForce k imm s := by
  cases k <;> rfl

theorem effect_condInstr (k : Config.Cond) (imm : Word) (s t : State) (h : exec (condInstr k imm) s = .next t) :
    Effect (condInstr k imm) s t := by
  rw [exec_condInstr] at h
  rcases condJump_cases condInForce k imm s with ⟨hc, e⟩ | ⟨hc, e⟩ <;> cases e.symm.trans h
  · exact .taken k imm rfl hc
  · exact .notTaken k imm rfl hc

/-- An instruction that is no conditional jump is none of the six. -/
theorem ne_condInstr (i : Instr) (h : ∀ imm, i ≠ .je imm ∧ i ≠ .jne imm ∧ i ≠ .jg imm ∧ i ≠ .jge imm ∧ i ≠ .jl imm ∧
    i ≠ .jle imm) (k : Config.Cond) (imm : Word) : i ≠ condInstr k imm := by
  obtain ⟨a, b, c, d, e, f⟩ := h imm
  cases k <;> assumption

/-- What applying an instruction's rule can do, once. -/
theorem exec_effect (i : Instr) (s t : State) (h : exec i s = .next t) : Effect i s t := by
  cases i with
  | nop => cases h; exact .regs [] rfl (by simp) (by simp) (by simp) (ne_condInstr _ (by simp))
  | mov ra _ => cases h; exact .regs [(ra, _)] rfl (by simp) (by simp) (by simp) (ne_condInstr _ (by simp))
  | not ra _ => cases h; exact .regs [(ra, _)] rfl (by simp) (by simp) (by simp) (ne_condInstr _ (by simp))
  | neg ra _ => cases h; exact .regs [(ra, _)] rfl (by simp) (by simp) (by simp) (ne_condInstr _ (by simp))
  | cmp => cases h; exact .cmp _ _ rfl
  | mul ra rb _ _ => cases h; exact .regs [(ra, _), (rb, _)] rfl (by simp) (by simp) (by simp) (ne_condInstr _ (by simp))
  | div ra rb rc rd =>
    rcases execDiv_cases ra rb rc rd s with ⟨_, e⟩ | ⟨hz, e⟩ <;> cases e.symm.trans h
    · exact .regs [(ra, _), (rb, _)] rfl (by simp) (by simp) (by simp) (ne_condInstr _ (by simp))
    · exact .raiseDiv _ _ _ _ rfl hz
  | jmp => cases h; exact .jump _ (by simp)
  | je imm => exact effect_condInstr .je imm s t h
  | jne imm => exact effect_condInstr .jne imm s t h
  | jg imm => exact effect_condInstr .jg imm s t h
  | jge imm => exact effect_condInstr .jge imm s t h
  | jl imm => exact effect_condInstr .jl imm s t h
  | jle imm => exact effect_condInstr .jle imm s t h
  | call => cases h; exact .jump _ (by simp)
  | ret => cases h; exact .jump _ (by simp)
  | movi ra _ => cases h; exact .regs [(ra, _)] rfl (by simp) (by simp) (by simp) (ne_condInstr _ (by simp))
  | st ra rb rc =>
    rcases execSt_cases ra rb rc s with ⟨hz, e⟩ | ⟨hz, e⟩ <;> cases e.symm.trans h
    · exact .st _ _ _ rfl hz
    · exact .raiseAccess _ _ _ (.inr rfl) hz
  | ld ra rb rc =>
    rcases execLd_cases ra rb rc s with ⟨hz, e⟩ | ⟨hz, e⟩ <;> cases e.symm.trans h
    · exact .regs [(ra, _)] rfl (by simp) (by simp) (by simp) (ne_condInstr _ (by simp))
    · exact .raiseAccess _ _ _ (.inl rfl) hz
  | add ra _ _ => cases h; exact .regs [(ra, _)] rfl (by simp) (by simp) (by simp) (ne_condInstr _ (by simp))
  | sub ra _ _ => cases h; exact .regs [(ra, _)] rfl (by simp) (by simp) (by simp) (ne_condInstr _ (by simp))
  | and ra _ _ => cases h; exact .regs [(ra, _)] rfl (by simp) (by simp) (by simp) (ne_condInstr _ (by simp))
  | or ra _ _ => cases h; exact .regs [(ra, _)] rfl (by simp) (by simp) (by simp) (ne_condInstr _ (by simp))
  | xor ra _ _ => cases h; exact .regs [(ra, _)] rfl (by simp) (by simp) (by simp) (ne_condInstr _ (by simp))
  | shl ra _ _ => cases h; exact .regs [(ra, _)] rfl (by simp) (by simp) (by simp) (ne_condInstr _ (by simp))
  | shr ra _ _ => cases h; exact .regs [(ra, _)] rfl (by simp) (by simp) (by simp) (ne_condInstr _ (by simp))
  | sar ra _ _ => cases h; exact .regs [(ra, _)] rfl (by simp) (by simp) (by simp) (ne_condInstr _ (by simp))
  | jmpr => cases h; exact .jump _ (by simp)
  | callr => cases h; exact .jump _ (by simp)
  | hlt => cases h; exact .halt rfl
  | invalid => cases h; exact .raiseInvalid _ rfl

/-- A fetched instruction is decoded from the opcode byte at pc and as many bytes as it asks for, all inside memory. -/
theorem fetched_instr (s : State) (i : Instr) (h : fetchInstr s = .instr i) :
    inRange s.pc 1 = true ∧ inRange s.pc (instrLength (opcodeByte s)) = true ∧
      ∃ b1 b2 b3 b4, i = decodeBytes (opcodeByte s) b1 b2 b3 b4 := by
  rcases fetchInstr_cases s with ⟨_, e⟩ | ⟨_, _, e⟩ | ⟨h1, h2, j, hd, e⟩ <;> cases e.symm.trans h
  refine ⟨h1, h2, ?_⟩
  obtain ⟨b, tail, e, -, hi, -⟩ := (decode_ok_iff _ _ _).1 hd
  obtain ⟨k, hk⟩ : ∃ k, instrLength (s.mem.get s.pc.toNat) = k + 1 :=
    ⟨instrLength (s.mem.get s.pc.toNat) - 1, by have := instrLength_bounds (s.mem.get s.pc.toNat); omega⟩
  rw [hk] at e
  simp only [Memory.bytes, List.cons.injEq] at e
  exact ⟨_, _, _, _, by rw [hi, ← e.1]; rfl⟩

/-- The claims' range of an access is the model's test. -/
theorem insideMemory_iff (a : Word) (n : Nat) : InsideMemory a n ↔ inRange a n = true := by
  simp only [InsideMemory, inRange, Bool.and_eq_true, decide_eq_true_eq]

/-- The claims' outside address is the model's test. -/
theorem outsideMemory_iff (a : Word) : OutsideMemory a ↔ inRange a 1 = false := by
  rw [← Bool.not_eq_true, ← insideMemory_iff]
  have hm : Config.memSize = 65536 := rfl
  simp only [OutsideMemory, InsideMemory, hm]
  omega

end Sys2Proof.Machine
end

