-- ==== Sys2Proof/Laws/PerInstr.lean ====
section
/-! SUPPORT. Statements made for each instruction: one lemma per constructor of `Instr`. -/

namespace Sys2Proof.Laws

open Sys2Proof Sys2Proof.Machine

/-- Under every legal OPMAP the encoding of an instruction has as many bytes as the fetch reads for its first byte
(30_encoding.md R53, R57, R67). -/
def EncodedLength.Statement (i : Instr) : Prop :=
  ∀ m : Config.OpMap, Config.LegalOpMap m → ∃ b0 tail, encodeWith m i = b0 :: tail ∧
    instrLengthWith m b0 = (encodeWith m i).length

theorem EncodedLength.nop : EncodedLength.Statement .nop :=
  fun _ h => ⟨_, _, rfl, instrLengthWith_of_at (instrIndex_idxNibble h rfl)⟩

theorem EncodedLength.mov (ra : Reg) (rb : Reg) : EncodedLength.Statement (.mov ra rb) :=
  fun _ h => ⟨_, _, rfl, instrLengthWith_of_at (instrIndex_idxNibble h rfl)⟩

theorem EncodedLength.not (ra : Reg) (rb : Reg) : EncodedLength.Statement (.not ra rb) :=
  fun _ h => ⟨_, _, rfl, instrLengthWith_of_at (instrIndex_idxNibble h rfl)⟩

theorem EncodedLength.neg (ra : Reg) (rb : Reg) : EncodedLength.Statement (.neg ra rb) :=
  fun _ h => ⟨_, _, rfl, instrLengthWith_of_at (instrIndex_idxNibble h rfl)⟩

theorem EncodedLength.cmp (ra : Reg) (rb : Reg) : EncodedLength.Statement (.cmp ra rb) :=
  fun _ h => ⟨_, _, rfl, instrLengthWith_of_at (instrIndex_idxNibble h rfl)⟩

theorem EncodedLength.mul (ra : Reg) (rb : Reg) (rc : Reg) (rd : Reg) : EncodedLength.Statement (.mul ra rb rc rd) :=
  fun _ h => ⟨_, _, rfl, instrLengthWith_of_at (instrIndex_idxNibble h rfl)⟩

theorem EncodedLength.div (ra : Reg) (rb : Reg) (rc : Reg) (rd : Reg) : EncodedLength.Statement (.div ra rb rc rd) :=
  fun _ h => ⟨_, _, rfl, instrLengthWith_of_at (instrIndex_idxNibble h rfl)⟩

theorem EncodedLength.jmp (imm : Word) : EncodedLength.Statement (.jmp imm) :=
  fun _ h => ⟨_, _, rfl, instrLengthWith_of_at (instrIndex_idxNibble h rfl)⟩

theorem EncodedLength.je (imm : Word) : EncodedLength.Statement (.je imm) :=
  fun _ h => ⟨_, _, rfl, instrLengthWith_of_at (instrIndex_idxNibble h rfl)⟩

theorem EncodedLength.jne (imm : Word) : EncodedLength.Statement (.jne imm) :=
  fun _ h => ⟨_, _, rfl, instrLengthWith_of_at (instrIndex_idxNibble h rfl)⟩

theorem EncodedLength.jg (imm : Word) : EncodedLength.Statement (.jg imm) :=
  fun _ h => ⟨_, _, rfl, instrLengthWith_of_at (instrIndex_idxNibble h rfl)⟩

theorem EncodedLength.jge (imm : Word) : EncodedLength.Statement (.jge imm) :=
  fun _ h => ⟨_, _, rfl, instrLengthWith_of_at (instrIndex_idxNibble h rfl)⟩

theorem EncodedLength.jl (imm : Word) : EncodedLength.Statement (.jl imm) :=
  fun _ h => ⟨_, _, rfl, instrLengthWith_of_at (instrIndex_idxNibble h rfl)⟩

theorem EncodedLength.jle (imm : Word) : EncodedLength.Statement (.jle imm) :=
  fun _ h => ⟨_, _, rfl, instrLengthWith_of_at (instrIndex_idxNibble h rfl)⟩

theorem EncodedLength.call (imm : Word) : EncodedLength.Statement (.call imm) :=
  fun _ h => ⟨_, _, rfl, instrLengthWith_of_at (instrIndex_idxNibble h rfl)⟩

theorem EncodedLength.ret : EncodedLength.Statement .ret :=
  fun _ h => ⟨_, _, rfl, instrLengthWith_of_at (instrIndex_idxNibble h rfl)⟩

theorem EncodedLength.movi (ra : Reg) (imm : Word) : EncodedLength.Statement (.movi ra imm) :=
  fun _ h => ⟨_, _, rfl, instrLengthWith_of_at (instrIndex_selNibble h rfl _)⟩

theorem EncodedLength.st (ra : Reg) (rb : Reg) (rc : Reg) : EncodedLength.Statement (.st ra rb rc) :=
  fun _ h => ⟨_, _, rfl, instrLengthWith_of_at (instrIndex_selNibble h rfl _)⟩

theorem EncodedLength.ld (ra : Reg) (rb : Reg) (rc : Reg) : EncodedLength.Statement (.ld ra rb rc) :=
  fun _ h => ⟨_, _, rfl, instrLengthWith_of_at (instrIndex_selNibble h rfl _)⟩

theorem EncodedLength.add (ra : Reg) (rb : Reg) (rc : Reg) : EncodedLength.Statement (.add ra rb rc) :=
  fun _ h => ⟨_, _, rfl, instrLengthWith_of_at (instrIndex_selNibble h rfl _)⟩

theorem EncodedLength.sub (ra : Reg) (rb : Reg) (rc : Reg) : EncodedLength.Statement (.sub ra rb rc) :=
  fun _ h => ⟨_, _, rfl, instrLengthWith_of_at (instrIndex_selNibble h rfl _)⟩

theorem EncodedLength.and (ra : Reg) (rb : Reg) (rc : Reg) : EncodedLength.Statement (.and ra rb rc) :=
  fun _ h => ⟨_, _, rfl, instrLengthWith_of_at (instrIndex_selNibble h rfl _)⟩

theorem EncodedLength.or (ra : Reg) (rb : Reg) (rc : Reg) : EncodedLength.Statement (.or ra rb rc) :=
  fun _ h => ⟨_, _, rfl, instrLengthWith_of_at (instrIndex_selNibble h rfl _)⟩

theorem EncodedLength.xor (ra : Reg) (rb : Reg) (rc : Reg) : EncodedLength.Statement (.xor ra rb rc) :=
  fun _ h => ⟨_, _, rfl, instrLengthWith_of_at (instrIndex_selNibble h rfl _)⟩

theorem EncodedLength.shl (ra : Reg) (rb : Reg) (rc : Reg) : EncodedLength.Statement (.shl ra rb rc) :=
  fun _ h => ⟨_, _, rfl, instrLengthWith_of_at (instrIndex_selNibble h rfl _)⟩

theorem EncodedLength.shr (ra : Reg) (rb : Reg) (rc : Reg) : EncodedLength.Statement (.shr ra rb rc) :=
  fun _ h => ⟨_, _, rfl, instrLengthWith_of_at (instrIndex_selNibble h rfl _)⟩

theorem EncodedLength.sar (ra : Reg) (rb : Reg) (rc : Reg) : EncodedLength.Statement (.sar ra rb rc) :=
  fun _ h => ⟨_, _, rfl, instrLengthWith_of_at (instrIndex_selNibble h rfl _)⟩

theorem EncodedLength.jmpr (ra : Reg) : EncodedLength.Statement (.jmpr ra) :=
  fun _ h => ⟨_, _, rfl, instrLengthWith_of_at (instrIndex_selNibble h rfl _)⟩

theorem EncodedLength.callr (ra : Reg) : EncodedLength.Statement (.callr ra) :=
  fun _ h => ⟨_, _, rfl, instrLengthWith_of_at (instrIndex_selNibble h rfl _)⟩

theorem EncodedLength.hlt : EncodedLength.Statement .hlt :=
  fun _ h => ⟨_, _, rfl, instrLengthWith_of_at (instrIndex_selNibble h rfl _)⟩

theorem EncodedLength.invalid (low : Nibble) : EncodedLength.Statement (.invalid low) :=
  fun m h => ⟨_, _, rfl, by rw [instrLengthWith_eq, instrIndex_tier2 15 low (by decide), h.at_ge (by decide)]; rfl⟩

end Sys2Proof.Laws
end

