-- ==== Sys2Proof/Tests/Slice0.lean ====
section
/-! SUPPORT. Tests. Expected results are the spec's own: the encodings of 30_encoding.md R54, R57 and R71, the vectors of
95_test_vectors.md, the tables of 44_muldiv.md and 45_control_transfer.md. The last part shows, for each statement with
hypotheses, a concrete state and operands that meet them. -/

namespace Sys2Proof.Tests

open Sys2Proof Sys2Proof.Machine

/-- A state with bytes at pc and some registers, otherwise at reset. -/
def mk (pc : Word) (bs : List Byte) (rs : List (Reg × Word)) : State :=
  rs.foldl (fun s p => s.setReg p.1 p.2) { State.reset with pc := pc, mem := Memory.setBytes [] pc.toNat bs }

/-- The same with flags S and Z. -/
def mkF (s z : Bool) (pc : Word) (bs : List Byte) : State :=
  (mk pc bs []).setFlags { sign := s, nonzero := z, carry := false, overflow := false }

/-- The outcome is a next state with the property. -/
def nextSat (o : Result) (p : State → Bool) : Bool :=
  match o with
  | .next t => p t
  | .fault _ => false
  | .refused _ => false

/-- One step from bytes at 0x100 gives a next state with the property. -/
def runs (bs : List Byte) (rs : List (Reg × Word)) (p : State → Bool) : Bool := nextSat (step (mk 0x100 bs rs)) p

/-- The record of a Faulted state. -/
def record (s : State) : Option FaultRecord :=
  match s.run with
  | .running => none
  | .halted => none
  | .faulted r => some r

/-! ### Well-formedness: the one check refuses the invalid row (30_encoding.md R63) -/

theorem test_wf_refuses_invalid_row : (Instr.invalid 5).wf = false := by decide

theorem test_wf_accepts_hlt : Instr.hlt.wf = true := by decide

/-! ### Decoding: one word of each row, written out from 30_encoding.md R54, R57, R71 -/

theorem test_decode_move_unary :
    decode [0x00] = .ok (.nop, []) ∧ decode [0x01, 0x12] = .ok (.mov 1 2, []) ∧
    decode [0x02, 0x12] = .ok (.not 1 2, []) ∧ decode [0x03, 0x12] = .ok (.neg 1 2, []) ∧
    decode [0x1F, 0xF9, 0xFF, 0xFF, 0xFF] = .ok (.movi 15 0xFFFFFFF9, []) := by decide

theorem test_decode_compare : decode [0x04, 0x12] = .ok (.cmp 1 2, []) := by decide

theorem test_decode_load_store :
    decode [0x22, 0x10] = .ok (.st 2 1 0, []) ∧ decode [0x34, 0x10] = .ok (.ld 4 1 0, []) := by decide

theorem test_decode_alu :
    decode [0x43, 0x12] = .ok (.add 3 1 2, []) ∧ decode [0x53, 0x12] = .ok (.sub 3 1 2, []) ∧
    decode [0x63, 0x12] = .ok (.and 3 1 2, []) ∧ decode [0x73, 0x12] = .ok (.or 3 1 2, []) ∧
    decode [0x83, 0x12] = .ok (.xor 3 1 2, []) ∧ decode [0x93, 0x12] = .ok (.shl 3 1 2, []) ∧
    decode [0xA3, 0x12] = .ok (.shr 3 1 2, []) ∧ decode [0xB3, 0x12] = .ok (.sar 3 1 2, []) := by decide

theorem test_decode_mul_div :
    decode [0x05, 0x56, 0x12] = .ok (.mul 5 6 1 2, []) ∧ decode [0x06, 0x34, 0x12] = .ok (.div 3 4 1 2, []) := by decide

theorem test_decode_control :
    decode [0x07, 0x34, 0x12, 0x00, 0x00] = .ok (.jmp 0x1234, []) ∧ decode [0x08, 0x34, 0x12, 0x00, 0x00] = .ok (.je 0x1234, []) ∧
    decode [0x09, 0x14, 0x00, 0x00, 0x00] = .ok (.jne 0x14, []) ∧ decode [0x0A, 0x34, 0x12, 0x00, 0x00] = .ok (.jg 0x1234, []) := by decide

theorem test_decode_control_more :
    decode [0x0B, 0x34, 0x12, 0x00, 0x00] = .ok (.jge 0x1234, []) ∧ decode [0x0C, 0x34, 0x12, 0x00, 0x00] = .ok (.jl 0x1234, []) ∧
    decode [0x0D, 0x34, 0x12, 0x00, 0x00] = .ok (.jle 0x1234, []) ∧ decode [0x0E, 0x20, 0x00, 0x00, 0x00] = .ok (.call 0x20, []) ∧
    decode [0x0F] = .ok (.ret, []) ∧ decode [0xC9] = .ok (.jmpr 9, []) ∧ decode [0xD9] = .ok (.callr 9, []) := by decide

theorem test_decode_halt_and_invalid :
    decode [0xE0] = .ok (.hlt, []) ∧ decode [0xE7] = .ok (.hlt, []) ∧ decode [0xF0] = .ok (.invalid 0, []) ∧
    decode [0xFF, 0x01] = .ok (.invalid 15, [0x01]) := by decide

theorem test_decode_refuses_short_lists :
    decode [] = .error .noByte ∧ decode [0x10, 0x12, 0x34, 0x56] = .error (.truncated 5) ∧
    decode [0x06, 0x34] = .error (.truncated 3) := by decide

theorem test_encode_examples :
    encode (.div 3 4 1 2) = [0x06, 0x34, 0x12] ∧ encode (.movi 0 0x78563412) = [0x10, 0x12, 0x34, 0x56, 0x78] ∧
    encode .hlt = [0xE0] ∧ encode (.jne 0x14) = [0x09, 0x14, 0x00, 0x00, 0x00] := by decide

theorem test_table_word :
    decodeTableWord 16 0x1243 = some (.add 3 1 2) ∧ decodeTableWord 8 0x1B = some (.movi 11 0) ∧
    decodeTableWord 8 0xF4 = some (.invalid 4) := by decide

theorem test_asm_text :
    asmText (.st 2 1 0) = "ST r2, [r1+r0]" ∧ asmText (.div 3 4 1 2) = "DIV r3, r4, r1, r2" ∧
    asmText (.movi 0 0x78563412) = "MOVI r0, 0x78563412" := by decide

/-! ### One step of each instruction (95_test_vectors.md part 2) -/

/-- 95_test_vectors.md 2.2. -/
theorem test_nop_advances : runs [0x00] [] (fun t => t.pc == 0x101 && t.run == .running) = true := by decide

/-- 95_test_vectors.md 2.2. -/
theorem test_mov_copies : runs [0x01, 0x12] [(2, 0xCAFEBABE)] (fun t => t.reg 1 == 0xCAFEBABE && t.reg 2 == 0xCAFEBABE && t.pc == 0x102) = true := by decide

/-- 95_test_vectors.md 2.2. -/
theorem test_movi_loads : runs [0x13, 0x00, 0x00, 0x00, 0x80] [] (fun t => t.reg 3 == 0x80000000 && t.pc == 0x105) = true := by decide

/-- 95_test_vectors.md 2.2. -/
theorem test_not_inverts : runs [0x02, 0x44] [(4, 0xA5A5A5A5)] (fun t => t.reg 4 == 0x5A5A5A5A && t.pc == 0x102) = true := by decide

/-- 95_test_vectors.md 2.2. -/
theorem test_neg_of_int_min_wraps : runs [0x03, 0x12] [(2, 0x80000000)] (fun t => t.reg 1 == 0x80000000) = true := by decide

/-- 95_test_vectors.md 2.2. -/
theorem test_neg_in_place : runs [0x03, 0x22] [(2, 0xFFFFFFFF)] (fun t => t.reg 2 == 1 && t.pc == 0x102) = true := by decide

/-- 95_test_vectors.md 2.3. -/
theorem test_cmp_less_without_overflow : runs [0x04, 0x12] [(1, 3), (2, 5)] (fun t => t.flags == ⟨true, true, false, false⟩ && t.pc == 0x102) = true := by decide

/-- 95_test_vectors.md 2.3. -/
theorem test_cmp_less_with_overflow : runs [0x04, 0x12] [(1, 0x80000000), (2, 1)] (fun t => t.flags == ⟨false, true, false, false⟩) = true := by decide

/-- 95_test_vectors.md 2.4. -/
theorem test_st_value_register_is_base : runs [0x21, 0x10] [(1, 0x300)] (fun t => t.mem.bytes 0x300 4 == [0x00, 0x03, 0x00, 0x00] && t.pc == 0x102) = true := by decide

/-- 95_test_vectors.md 2.4. -/
theorem test_st_at_highest_address : runs [0x22, 0x10] [(1, 0xFFFC), (2, 0xAABBCCDD)] (fun t => t.mem.bytes 0xFFFC 4 == [0xDD, 0xCC, 0xBB, 0xAA]) = true := by decide

/-- 95_test_vectors.md 2.4, with base plus offset 0x100 and the instruction's own two bytes among the four loaded. -/
theorem test_ld_address_wraps : runs [0x33, 0x12] [(1, 0x80000000), (2, 0x80000100)] (fun t => t.reg 3 == 0x1233) = true := by decide

/-- 95_test_vectors.md 2.4. -/
theorem test_ld_past_the_top_faults : runs [0x32, 0x10] [(1, 0xFFFD)] (fun t => record t == some ⟨.outOfBoundsAccess, 0x100, 0x10000⟩ && t.pc == 0x100 && t.reg 2 == 0) = true := by decide

/-- 95_test_vectors.md 2.5. -/
theorem test_add_overflows : runs [0x43, 0x12] [(1, 0x7FFFFFFF), (2, 1)] (fun t => t.reg 3 == 0x80000000 && t.flags == Flags.clear) = true := by decide

/-- 95_test_vectors.md 2.5. -/
theorem test_sub_is_rb_minus_rc : runs [0x51, 0x21] [(1, 9), (2, 4)] (fun t => t.reg 1 == 0xFFFFFFFB && t.pc == 0x102) = true := by decide

/-- 95_test_vectors.md 2.5. -/
theorem test_and_vector : runs [0x63, 0x12] [(1, 0xF0F0F0F0), (2, 0x0FF00FF0)] (fun t => t.reg 3 == 0x00F000F0) = true := by decide

/-- 95_test_vectors.md 2.5. -/
theorem test_or_vector : runs [0x73, 0x12] [(1, 0xF0F0F0F0), (2, 0x0FF00FF0)] (fun t => t.reg 3 == 0xFFF0FFF0) = true := by decide

/-- 95_test_vectors.md 2.5. -/
theorem test_xor_vector : runs [0x83, 0x12] [(1, 0xF0F0F0F0), (2, 0x0FF00FF0)] (fun t => t.reg 3 == 0xFF00FF00) = true := by decide

/-- 95_test_vectors.md 2.6. -/
theorem test_shl_by_33_is_by_1 : runs [0x93, 0x12] [(1, 0x12345678), (2, 33)] (fun t => t.reg 3 == 0x2468ACF0) = true := by decide

/-- 95_test_vectors.md 2.6. -/
theorem test_shr_vector : runs [0xA3, 0x12] [(1, 0xFFFFFFF9), (2, 2)] (fun t => t.reg 3 == 0x3FFFFFFE) = true := by decide

/-- 95_test_vectors.md 2.6. -/
theorem test_sar_vector : runs [0xB3, 0x12] [(1, 0x80000001), (2, 1)] (fun t => t.reg 3 == 0xC0000000) = true := by decide

/-- 95_test_vectors.md 2.6. -/
theorem test_sar_by_minus_one_is_by_31 : runs [0xB3, 0x12] [(1, 0x80000000), (2, 0xFFFFFFFF)] (fun t => t.reg 3 == 0xFFFFFFFF) = true := by decide

/-- 44_muldiv.md R100 table. -/
theorem test_mul_signed_high_half : runs [0x05, 0x56, 0x12] [(1, 0x80000000), (2, 0x7FFFFFFF)] (fun t => t.reg 5 == 0xC0000000 && t.reg 6 == 0x80000000 && t.pc == 0x103) = true := by decide

/-- 95_test_vectors.md 2.7. -/
theorem test_mul_equal_destinations : runs [0x05, 0x11, 0x11] [(1, 0x00010000)] (fun t => t.reg 1 == 0) = true := by decide

/-- 44_muldiv.md R102 table. -/
theorem test_div_negative_dividend : runs [0x06, 0x34, 0x12] [(1, 0xFFFFFFF9), (2, 2)] (fun t => t.reg 3 == 0xFFFFFFFD && t.reg 4 == 0xFFFFFFFF && t.pc == 0x103) = true := by decide

/-- 95_test_vectors.md 2.7. -/
theorem test_div_by_zero_faults : runs [0x06, 0x34, 0x12] [(1, 7)] (fun t => record t == some ⟨.divisionByZero, 0x100, 0⟩ && t.reg 3 == 0 && t.pc == 0x100) = true := by decide

/-- 95_test_vectors.md 2.8. -/
theorem test_jmp_outside_completes : runs [0x07, 0x00, 0x00, 0x01, 0x00] [] (fun t => t.pc == 0x10000 && t.run == .running) = true := by decide

/-- 95_test_vectors.md 2.8. -/
theorem test_jmpr_vector : runs [0xC9] [(9, 0x1F)] (fun t => t.pc == 0x1F) = true := by decide

/-- 95_test_vectors.md 2.8, rows of COND_VALUE: JE, JNE, JG, JGE, JL, JLE after S=0 Z=0, S=0 Z=1, S=1 Z=1. -/
def condRow (s z : Bool) : List Nat :=
  [0x08, 0x09, 0x0A, 0x0B, 0x0C, 0x0D].map fun b =>
    match step (mkF s z 0x100 [b, 0x40, 0x00, 0x00, 0x00]) with
    | .next t => t.pc.toNat
    | .fault _ => 0
    | .refused _ => 0

theorem test_cond_jumps_equal : condRow false false = [0x40, 0x105, 0x105, 0x40, 0x105, 0x40] := by decide

theorem test_cond_jumps_greater : condRow false true = [0x105, 0x40, 0x40, 0x40, 0x105, 0x105] := by decide

theorem test_cond_jumps_less : condRow true true = [0x105, 0x40, 0x105, 0x105, 0x40, 0x40] := by decide

/-- 95_test_vectors.md 2.8. -/
theorem test_call_changes_nothing : runs [0x0E, 0x20, 0x00, 0x00, 0x00] [] (fun t => t == mk 0x100 [0x0E, 0x20, 0x00, 0x00, 0x00] []) = true := by decide

/-- 95_test_vectors.md 2.8. -/
theorem test_callr_changes_nothing : runs [0xD9] [(9, 7)] (fun t => t == mk 0x100 [0xD9] [(9, 7)]) = true := by decide

/-- 95_test_vectors.md 2.8. -/
theorem test_ret_changes_nothing : runs [0x0F] [] (fun t => t == mk 0x100 [0x0F] []) = true := by decide

/-- 95_test_vectors.md 2.8. -/
theorem test_hlt_halts : runs [0xE0] [] (fun t => t.run == .halted && t.pc == 0x100) = true := by decide

/-- 95_test_vectors.md P10. -/
theorem test_invalid_opcode : runs [0xF3] [] (fun t => record t == some ⟨.invalidOpcode, 0x100, 0xF3⟩ && t.pc == 0x100) = true := by decide

/-! ### Fetch (95_test_vectors.md 2.9) -/

theorem test_fetch_hlt_at_last_byte : nextSat (step (mk 0xFFFF [0xE0] [])) (fun t => t.run == .halted) = true := by decide

theorem test_fetch_operand_outside :
    nextSat (step (mk 0xFFFC [0x10] [])) (fun t => record t == some ⟨.outOfBoundsAccess, 0xFFFC, 0x10000⟩) = true := by decide

theorem test_fetch_movi_ends_at_top :
    nextSat (step (mk 0xFFFB [0x10, 0x78, 0x56, 0x34, 0x12] []))
      (fun t => t.reg 0 == 0x12345678 && t.pc == 0x10000) = true := by decide

theorem test_fetch_invalid_at_last_byte :
    nextSat (step (mk 0xFFFF [0xF5] [])) (fun t => record t == some ⟨.invalidOpcode, 0xFFFF, 0xF5⟩) = true := by decide

theorem test_fetch_negative_pc :
    nextSat (step (mk 0x80000000 [] []))
      (fun t => record t == some ⟨.outOfBoundsAccess, 0x80000000, 0x80000000⟩) = true := by decide

theorem test_withFetchWord : nextSat (step (State.reset.withFetchWord 8 0x13)) (fun t => t.pc == 5) = true := by decide

theorem test_cond_literal_table :
    Config.condLiteral.je.eval false true = true ∧ Config.condLiteral.jg.eval false false = true := by decide

theorem test_trace_line :
    hostTrace (mk 0x100 [0x43, 0x12] []) = some ⟨0x100, [0x43, 0x12], "ADD r3, r1, r2"⟩ := by decide

/-! ### The machine with its parameters as arguments (00_scope.md R7) -/

/-- Another OPMAP, with NOP and RET, both of shape N and tier 1, exchanged. -/
def swappedOpMap : Config.OpMap := (Config.standardOpMap.set 0 .ret).set 15 .nop

/-- The parameters with that OPMAP, COND_LITERAL and low5. -/
def otherParams : Config.Params where
  opMap := swappedOpMap
  cond := Config.condLiteral
  shamt := .low5

theorem swappedOpMap_legal : Config.LegalOpMap swappedOpMap where
  perm := by decide
  tier k mn hk := by
    obtain ⟨hlt, -⟩ := List.getElem?_eq_some_iff.1 hk
    have hlt : k < 30 := hlt
    interval_cases k <;> cases hk <;> decide
  movi := rfl
  hlt := rfl

/-- 30_encoding.md R57, 70_reset_and_hazards.md R158: under another OPMAP the byte 0x00 is the instruction of index 0. -/
theorem test_other_opmap_decodes :
    decodeWith swappedOpMap [0x00] = .ok (.ret, []) ∧ encodeWith swappedOpMap .nop = [0x0F] ∧
    stepWith otherParams State.reset = .next State.reset := ⟨by decide, by decide, rfl⟩

/-- 45_control_transfer.md R108: with all flags clear JE is not taken under COND_LITERAL, and is under COND_VALUE. -/
theorem test_other_cond_jumps :
    nextSat (stepWith otherParams (mkF false false 0x100 [0x08, 0x40, 0x00, 0x00, 0x00])) (fun t => t.pc == 0x105) = true ∧
    nextSat (stepWith paramsInForce (mkF false false 0x100 [0x08, 0x40, 0x00, 0x00, 0x00])) (fun t => t.pc == 0x40) = true :=
  ⟨by decide, by decide⟩

/-! ### Witnesses: a concrete state and operands that meet the hypotheses of each statement -/

theorem witness_EncodingLengthIsShapeLength : Config.LegalOpMap swappedOpMap ∧ (Instr.movi 15 0).wf = true :=
  ⟨swappedOpMap_legal, rfl⟩

theorem witness_DecodeOfEncode : Config.LegalOpMap opMapInForce ∧ Config.LegalOpMap swappedOpMap :=
  ⟨legal_opMapInForce, swappedOpMap_legal⟩

theorem witness_EncodeOfDecode :
    decode [0xE7, 0x01] = .ok (.hlt, [0x01]) ∧ decode [0x51, 0x12, 0x00] = .ok (.sub 1 1 2, [0x00]) ∧
    Config.LegalOpMap swappedOpMap ∧ decodeWith swappedOpMap [0x0F, 0x01] = .ok (.nop, [0x01]) :=
  ⟨by decide, by decide, swappedOpMap_legal, by decide⟩

theorem witness_DecodeTotalOnOwnBytes :
    instrLengthWith swappedOpMap 0x06 ≤ ([0x06, 0x34, 0x12, 0x00] : List Byte).length := by decide

theorem witness_InvalidBytesAreF0ToFF :
    Config.LegalOpMap opMapInForce ∧ decodeWith opMapInForce [0xEF] = .ok (.hlt, []) ∧
    decodeWith opMapInForce [0xF0] = .ok (.invalid 0, []) ∧ decodeWith opMapInForce [0xFF] = .ok (.invalid 15, []) :=
  ⟨legal_opMapInForce, by decide, by decide, by decide⟩

theorem witness_StepRunsTheDecodedInstruction :
    (mk 0xFFFE [0x43, 0x12] []).run = .running ∧ (mk 0xFFFE [0x43, 0x12] []).pc.toNat + 2 ≤ Config.memSize ∧
    decode ((mk 0xFFFE [0x43, 0x12] []).mem.bytes 0xFFFE 2) = .ok (.add 3 1 2, []) ∧
    decodeWith otherParams.opMap ((mk 0xFFFE [0x43, 0x12] []).mem.bytes 0xFFFE 2) = .ok (.add 3 1 2, []) := by decide

/-- Two values of the parameters that differ in COND, and two that differ in SHAMT_MODE. -/
theorem witness_ParametersActWhereNamed :
    (otherParams.shamt = paramsInForce.shamt ∧ otherParams ≠ paramsInForce ∧ ∀ k imm, Instr.shl 1 2 3 ≠ condInstr k imm) ∧
    (paramsInForce.cond = ({ paramsInForce with shamt := .faultOutside0To31 } : Config.Params).cond ∧
      ∀ ra rb rc, Instr.je 0 ≠ .shl ra rb rc ∧ Instr.je 0 ≠ .shr ra rb rc ∧ Instr.je 0 ≠ .sar ra rb rc) :=
  ⟨⟨rfl, by decide, ne_condInstr _ (by simp)⟩, rfl, by simp⟩

theorem witness_StepAlwaysHasANextState : otherParams.shamt = .low5 := rfl

theorem witness_TerminalStatesStay :
    State.reset.halt.run ≠ .running ∧ (State.reset.raise divisionByZero).run ≠ .running := by decide

/-- One state for each clause: pc = MEM_SIZE and pc = -1; 0xF0 at the last byte; MOV at the last byte. -/
theorem witness_FetchFaultsInOrder :
    ((mk 0x10000 [] []).run = .running ∧ OutsideMemory (mk 0x10000 [] []).pc) ∧
    ((mk 0xFFFFFFFF [] []).run = .running ∧ OutsideMemory (mk 0xFFFFFFFF [] []).pc) ∧
    ((mk 0xFFFF [0xF0] []).run = .running ∧ ¬ OutsideMemory (mk 0xFFFF [0xF0] []).pc ∧
      0xF0 ≤ (opcodeByte (mk 0xFFFF [0xF0] [])).toNat) ∧
    ((mk 0xFFFF [0x01] []).run = .running ∧ ¬ OutsideMemory (mk 0xFFFF [0x01] []).pc ∧
      (opcodeByte (mk 0xFFFF [0x01] [])).toNat < 0xF0 ∧
      ¬ InsideMemory (mk 0xFFFF [0x01] []).pc (instrLength (opcodeByte (mk 0xFFFF [0x01] [])))) := by
  unfold OutsideMemory InsideMemory; decide

theorem witness_FaultingStepChangesOnlyRun :
    (mk 0x10000 [] []).run = .running ∧ ∃ t r, step (mk 0x10000 [] []) = .next t ∧ t.run = .faulted r :=
  ⟨rfl, _, _, rfl, rfl⟩

/-- One state for each kind and, for OutOfBoundsAccess, each of its three causes. -/
theorem witness_StepFaultsExactlyWhenListed :
    (mk 0x10000 [] []).run = .running ∧ OutsideMemory (mk 0x10000 [] []).pc ∧
    (mk 0xFFFF [0x01] []).run = .running ∧
    Runs (mk 0x100 [0x32, 0x10] [(1, 0xFFFD)]) (.ld 2 1 0) ∧
    ¬ InsideMemory (effAddr (mk 0x100 [0x32, 0x10] [(1, 0xFFFD)]) 1 0) 4 ∧
    Runs (mk 0x100 [0x06, 0x34, 0x12] []) (.div 3 4 1 2) ∧ (mk 0x100 [0x06, 0x34, 0x12] []).reg 2 = 0 ∧
    (mk 0xFFFF [0xF5] []).run = .running := by
  unfold OutsideMemory InsideMemory Runs; decide

theorem witness_RunStateTransitions :
    (mk 0x100 [0xE0] []).run = .running ∧ (∃ t, step (mk 0x100 [0xE0] []) = .next t) ∧
    fetchInstr (mk 0x100 [0xE0] []) = .instr .hlt ∧ fetchInstr (mk 0x100 [0x00] []) ≠ .instr .hlt ∧
    State.reset.halt.run ≠ .running ∧ ∃ t, hostReset [0xE0] State.reset.halt = some t :=
  ⟨rfl, ⟨_, rfl⟩, rfl, by decide, by decide, _, rfl⟩

theorem witness_FetchDependsOnlyOnBytesAtPc :
    (mk 0x100 [0xE0] []).pc = (mk 0x100 [0xE0] [(1, 5)]).pc ∧
    ∀ k < 5, (mk 0x100 [0xE0] []).mem.get ((mk 0x100 [0xE0] []).pc.toNat + k) =
      (mk 0x100 [0xE0] [(1, 5)]).mem.get ((mk 0x100 [0xE0] []).pc.toNat + k) := by decide

/-- Program P4's store of HLT over the next instruction. -/
theorem witness_StoreIntoNextInstructionIsFetched :
    (mk 0x0A [0x21, 0x20] [(1, 0xE0), (2, 0x0C)]).mem.wf = true ∧
    (mk 0x0A [0x21, 0x20] [(1, 0xE0), (2, 0x0C)]).run = .running ∧
    InsideMemory (effAddr (mk 0x0A [0x21, 0x20] [(1, 0xE0), (2, 0x0C)]) 2 0) 4 ∧
    effAddr (mk 0x0A [0x21, 0x20] [(1, 0xE0), (2, 0x0C)]) 2 0 = 0x0A + 2 ∧
    decode (leBytes ((mk 0x0A [0x21, 0x20] [(1, 0xE0), (2, 0x0C)]).reg 1)) = .ok (.hlt, [0x00, 0x00, 0x00]) := by
  unfold InsideMemory; decide

theorem witness_FetchWordRunsNext :
    State.reset.mem.wf = true ∧ decodeTableWord 16 0x1243 = some (.add 3 1 2) := by decide

theorem witness_ResetMeetsTheInvariant : ∃ t, hostReset [0x10, 0x00] State.reset = some t := ⟨_, rfl⟩

theorem witness_StepKeepsTheInvariant :
    Inv State.reset ∧ ∃ t, step State.reset = .next t := ⟨⟨rfl, rfl, rfl, by decide, trivial⟩, _, rfl⟩

/-- For the clauses: a CMP that changes F; an instruction that is no conditional jump; a conditional jump and flags that
agree on S and Z but not on C. -/
theorem witness_FlagsWrittenByCmpReadByConditionalJumps :
    (∃ t, exec (.cmp 1 2) (mk 0x100 [] [(1, 3), (2, 5)]) = .next t ∧ t.flags ≠ (mk 0x100 [] [(1, 3), (2, 5)]).flags) ∧
    (∀ k imm, Instr.nop ≠ condInstr k imm) ∧ (∃ t, exec .nop State.reset = .next t) ∧
    (∃ t, exec (.cmp 1 2) (mkF true true 0x100 []) = .next t) ∧
    ((⟨false, false, true, false⟩ : Flags).sign = State.reset.flags.sign ∧
      (⟨false, false, true, false⟩ : Flags).nonzero = State.reset.flags.nonzero ∧
      ∃ t, exec (condInstr .je 0x40) State.reset = .next t) :=
  ⟨⟨_, rfl, by decide⟩, ne_condInstr _ (by simp), ⟨_, rfl⟩, ⟨_, rfl⟩, rfl, rfl, _, rfl⟩

theorem witness_OnlyStChangesMemory :
    ∃ t, exec (.st 2 1 0) (mk 0x100 [] [(2, 0x11223344)]) = .next t ∧
      t.mem.get 0 ≠ (mk 0x100 [] [(2, 0x11223344)]).mem.get 0 := ⟨_, rfl, by decide⟩

theorem witness_OnlyDestinationsChange :
    ∃ t, exec (.mov 1 2) (mk 0x100 [] [(2, 7)]) = .next t ∧ t.reg 1 ≠ (mk 0x100 [] [(2, 7)]).reg 1 := ⟨_, rfl, by decide⟩

/-- A NOP at the last byte of memory. -/
theorem witness_PcAdvancesByLengthWithoutWrap :
    Runs (mk 0xFFFF [0x00] []) .nop ∧ (∃ t, step (mk 0xFFFF [0x00] []) = .next t ∧ t.run = .running) ∧
    (∀ imm, Instr.nop ≠ .jmp imm) ∧ (∀ ra, Instr.nop ≠ .jmpr ra) ∧ (∀ k imm, Instr.nop ≠ condInstr k imm) ∧
    (∀ imm, Instr.nop ≠ .call imm) ∧ (∀ ra, Instr.nop ≠ .callr ra) ∧ Instr.nop ≠ .ret :=
  ⟨⟨rfl, rfl⟩, ⟨_, rfl, rfl⟩, by simp, by simp, ne_condInstr _ (by simp), by simp, by simp, by simp⟩

theorem witness_MoviLoadsTheImmediate :
    (mk 0 [0x10, 0x12, 0x34, 0x56, 0x78] []).run = .running ∧ (mk 0 [0x10, 0x12, 0x34, 0x56, 0x78] []).pc = 0 ∧
    (mk 0 [0x10, 0x12, 0x34, 0x56, 0x78] []).mem.bytes 0 5 = [0x10, 0x12, 0x34, 0x56, 0x78] := by decide

theorem witness_NegNegates :
    (mk 0x100 [] [(2, 0x80000001)]).reg 2 ≠ 0x80000000 ∧ (mk 0x100 [] [(2, 0x80000000)]).reg 2 = 0x80000000 := by decide

theorem witness_CmpFlagsTellTheDifference :
    (-4294967295 : Int) = ((mk 0x100 [] [(1, 0x80000000), (2, 0x7FFFFFFF)]).reg 1).toInt -
      ((mk 0x100 [] [(1, 0x80000000), (2, 0x7FFFFFFF)]).reg 2).toInt := by decide

/-- A difference at each end of the range: -2^31, where JL is taken, and 2^31 - 1, where JG is. -/
theorem witness_JumpAfterCmpFollowsItsRelation :
    (∃ t, exec (.cmp 1 2) (mk 0x100 [] [(1, 0x80000000), (2, 0)]) = .next t) ∧
    ((mk 0x100 [] [(1, 0x80000000), (2, 0)]).reg 1).toInt - ((mk 0x100 [] [(1, 0x80000000), (2, 0)]).reg 2).toInt
      = -(2 ^ 31) ∧
    condRelation .jl 0x80000000 0 ∧ ¬ condRelation .jg 0x80000000 0 ∧
    (∃ t, exec (.cmp 1 2) (mk 0x100 [] [(1, 0x7FFFFFFF), (2, 0)]) = .next t) ∧
    ((mk 0x100 [] [(1, 0x7FFFFFFF), (2, 0)]).reg 1).toInt - ((mk 0x100 [] [(1, 0x7FFFFFFF), (2, 0)]).reg 2).toInt
      = 2 ^ 31 - 1 ∧
    condRelation .jg 0x7FFFFFFF 0 :=
  ⟨⟨_, rfl⟩, by decide, by unfold condRelation; decide, by unfold condRelation; decide, ⟨_, rfl⟩, by decide,
    by unfold condRelation; decide⟩

/-- The highest legal address. -/
theorem witness_StStoresFourBytes :
    (mk 0x100 [] [(1, 0xFFFC)]).mem.wf = true ∧ InsideMemory (effAddr (mk 0x100 [] [(1, 0xFFFC)]) 1 0) 4 := by
  unfold InsideMemory; decide

/-- The lowest address, reached by a wrapping sum, and the highest legal one. -/
theorem witness_LdLoadsFourBytes :
    InsideMemory (effAddr (mk 0x100 [] [(1, 0x80000000), (2, 0x80000000)]) 1 2) 4 ∧
    InsideMemory (effAddr (mk 0x100 [] [(1, 0xFFFC)]) 1 0) 4 := by
  unfold InsideMemory; decide

/-- An access that starts inside memory, one that starts at MEM_SIZE, one at -1. -/
theorem witness_LdStOutsideMemoryFault :
    ¬ InsideMemory (effAddr (mk 0x100 [] [(1, 0xFFFD)]) 1 0) 4 ∧
    ¬ InsideMemory (effAddr (mk 0x100 [] [(1, 0x10000)]) 1 0) 4 ∧
    ¬ InsideMemory (effAddr (mk 0x100 [] [(1, 0xFFFFFFFF)]) 1 0) 4 := by
  unfold InsideMemory; decide

theorem witness_LoadReturnsWhatWasStored :
    (mk 0x100 [] [(1, 0x200), (2, 9)]).mem.wf = true ∧
    InsideMemory (effAddr (mk 0x100 [] [(1, 0x200), (2, 9)]) 1 0) 4 ∧
    ∃ t, exec (.st 2 1 0) (mk 0x100 [] [(1, 0x200), (2, 9)]) = .next t ∧
      t.reg 1 = (mk 0x100 [] [(1, 0x200), (2, 9)]).reg 1 ∧ t.reg 0 = (mk 0x100 [] [(1, 0x200), (2, 9)]).reg 0 :=
  ⟨by decide, by unfold InsideMemory; decide, _, rfl, by decide, by decide⟩

theorem witness_AluCommonForm : ((.shl, 9) : (Reg → Reg → Reg → Instr) × Nibble) ∈ aluInstrs := by simp [aluInstrs]

theorem witness_ShiftsMultiplyAndDivideByPowersOfTwo :
    31 = ((mk 0x100 [] [(2, 0xFFFFFFFF)]).reg 2).toNat % 32 ∧ 0 = ((mk 0x100 [] [(2, 32)]).reg 2).toNat % 32 := by decide

theorem witness_AlternativeShiftModeStopsAbove31 :
    ((mk 0x100 [] [(2, 31)]).reg 2).toNat ≤ 31 ∧ 31 < ((mk 0x100 [] [(2, 32)]).reg 2).toNat := by decide

theorem witness_MulGivesTheExactProduct : (5 : Reg) ≠ 6 := by decide

theorem witness_DivTruncatesTowardZero :
    (mk 0x100 [] [(1, 0xFFFFFFF9), (2, 2)]).reg 2 ≠ 0 ∧ (3 : Reg) ≠ 4 ∧
    ¬ ((mk 0x100 [] [(1, 0xFFFFFFF9), (2, 2)]).reg 1 = 0x80000000 ∧ (mk 0x100 [] [(1, 0xFFFFFFF9), (2, 2)]).reg 2 = 0xFFFFFFFF) ∧
    (mk 0x100 [] [(1, 0x80000000), (2, 0xFFFFFFFF)]).reg 1 = 0x80000000 ∧
    (mk 0x100 [] [(1, 0x80000000), (2, 0xFFFFFFFF)]).reg 2 = 0xFFFFFFFF := by decide

theorem witness_DivByZeroFaults : State.reset.reg 2 = 0 := by decide

/-- Dividends on both sides of zero. -/
theorem witness_SecondDestinationWins :
    (mk 0x100 [] [(1, 7), (2, 2)]).reg 2 ≠ 0 ∧ 0 ≤ ((mk 0x100 [] [(1, 7), (2, 2)]).reg 1).toInt ∧
    ((mk 0x100 [] [(1, 0xFFFFFFF9), (2, 2)]).reg 1).toInt ≤ 0 := by decide

/-- Targets MEM_SIZE and -1. -/
theorem witness_JumpsCompleteWithAnyTarget :
    State.reset.run = .running ∧ OutsideMemory 0x10000 ∧ OutsideMemory ((mk 0x100 [] [(9, 0xFFFFFFFF)]).reg 9) := by
  unfold OutsideMemory; decide

theorem witness_ConditionalJumpsFollowCondValue :
    condValueFormula .jle State.reset.flags ∧ ¬ condValueFormula .jg State.reset.flags := by
  unfold condValueFormula; decide

theorem witness_CondLiteralFollowsItsFormulas :
    condLiteralFormula .jg State.reset.flags ∧ ¬ condLiteralFormula .je State.reset.flags := by
  unfold condLiteralFormula; decide

theorem witness_StubsHang :
    Runs (mk 0x100 [0x0E, 0x20, 0x00, 0x00, 0x00] []) (.call 0x20) ∧ Runs (mk 0x100 [0xD9] []) (.callr 9) ∧
    Runs (mk 0x100 [0x0F] []) .ret := ⟨⟨rfl, rfl⟩, ⟨rfl, rfl⟩, rfl, rfl⟩

theorem witness_HltHaltsAtAnyAddress :
    (mk 0xFFFF [0xEF] []).run = .running ∧ ¬ OutsideMemory (mk 0xFFFF [0xEF] []).pc ∧
    (opcodeByte (mk 0xFFFF [0xEF] [])).toNat / 16 = 0xE := by
  unfold OutsideMemory; decide

/-- Images of 65536 bytes, which fits, and of 65537 bytes, which does not. -/
theorem witness_ResetLeavesTheStatedState :
    (List.replicate 65536 (0 : Byte)).length ≤ 65536 ∧ 65536 < (List.replicate 65537 (0 : Byte)).length := by
  rw [List.length_replicate, List.length_replicate]; omega

/-- The last byte of memory, under a map whose index 0 is NOP and under one where it is RET. -/
theorem witness_ZeroByteRunsTheInstructionOfIndexZero :
    (mk 0xFFFF [] []).run = .running ∧ ¬ OutsideMemory (mk 0xFFFF [] []).pc ∧ opcodeByte (mk 0xFFFF [] []) = 0 ∧
    paramsInForce.opMap[0]? = some .nop ∧ otherParams.opMap[0]? = some .ret ∧
    InsideMemory (mk 0xFFFF [] []).pc (instrLengthWith otherParams.opMap 0) := by
  unfold OutsideMemory InsideMemory; decide

theorem witness_EmptyImageRunsOffTheTop :
    (65536 : Nat) ≤ 65536 ∧ ({ otherParams with opMap := opMapInForce } : Config.Params).opMap[0]? = some .nop := by decide

/-- Four bytes at the highest legal address, and one byte too many. -/
theorem witness_HostReadsWhatTheStateHolds :
    (15 : Nat) < 16 ∧ InsideMemory 0xFFFC 4 ∧ ¬ InsideMemory 0xFFFC 5 := by
  unfold InsideMemory; decide

end Sys2Proof.Tests
end

/-! The run state and the flags (10_state.md R23, R28): what a step can do to `run`, and which instructions write or read
`F`. -/

namespace Sys2Proof.Proofs.RunAndFlags

open Sys2Proof Sys2Proof.Machine

/-! ### The run state -/

/-- What an instruction's rule can do to the run state, said once: HLT halts; any other instruction raises a fault or
leaves the run state alone. -/
theorem exec_run_cases (i : Instr) (s t : State) (h : exec i s = .next t) :
    (i = .hlt ∧ t.run = .halted) ∨ (i ≠ .hlt ∧ ((∃ r, t = s.raise r) ∨ t.run = s.run)) := by
  cases exec_effect i s t h with
  | raiseAccess ra rb rc hi _ => exact .inr ⟨by rcases hi with rfl | rfl <;> simp, .inl ⟨_, rfl⟩⟩
  | raiseDiv ra rb rc rd hi _ => exact .inr ⟨by simp [hi], .inl ⟨_, rfl⟩⟩
  | raiseInvalid low hi => exact .inr ⟨by simp [hi], .inl ⟨_, rfl⟩⟩
  | halt hi => exact .inl ⟨hi, rfl⟩
  | regs ws _ hh _ _ _ =>
    obtain ⟨-, -, -, hrun, -⟩ := setRegs_facts ws s
    exact .inr ⟨hh, .inr (by simp [hrun])⟩
  | cmp ra rb hi => exact .inr ⟨by simp [hi], .inr rfl⟩
  | st ra rb rc hi _ => exact .inr ⟨by simp [hi], .inr rfl⟩
  | jump target hi =>
    exact .inr ⟨by rcases hi with ⟨_, rfl⟩ | ⟨_, rfl⟩ | ⟨_, rfl⟩ | ⟨_, rfl⟩ | rfl <;> simp, .inr rfl⟩
  | taken k imm hi _ => exact .inr ⟨by cases k <;> simp [hi, condInstr], .inr rfl⟩
  | notTaken k imm hi _ => exact .inr ⟨by cases k <;> simp [hi, condInstr], .inr rfl⟩

/-- What a step of a Running machine can do to the run state: a fetched HLT halts; any other step raises a fault or stays
Running. -/
theorem step_run_cases (s t : State) (hr : s.run = .running) (h : step s = .next t) :
    (fetchInstr s = .instr .hlt ∧ t.run = .halted) ∨
    (fetchInstr s ≠ .instr .hlt ∧ ((∃ r, t = s.raise r) ∨ t.run = .running)) := by
  rcases step_cases s with ⟨hn, -⟩ | ⟨-, r, hf, e⟩ | ⟨-, i, hf, e⟩
  · exact absurd hr hn
  · cases e.symm.trans h
    exact .inr ⟨by simp [hf], .inl ⟨r, rfl⟩⟩
  · simpa [hf, hr] using exec_run_cases i s t (e.symm.trans h)

/-- A state that a fault was raised in is Faulted. -/
@[simp] theorem raise_isFaulted (s : State) (r : Raised) : (s.raise r).isFaulted = true := rfl

/-- A Halted or Running state is not Faulted. -/
theorem isFaulted_eq_false (s : State) (h : s.run = .halted ∨ s.run = .running) : s.isFaulted = false := by
  rcases h with h | h <;> simp [State.isFaulted, h]

/-- A state that is not Faulted is none that a fault was raised in. -/
theorem ne_raise {s t : State} (h : t.isFaulted = false) (r : Raised) : t ≠ s.raise r := by
  rintro rfl
  simp at h

/-- Halted and Faulted are terminal for a step. -/
theorem step_of_not_running (s : State) (h : s.run ≠ .running) : step s = .next s := by
  rcases step_cases s with ⟨-, e⟩ | ⟨hr, -⟩ | ⟨hr, -⟩
  · exact e
  · exact absurd hr h
  · exact absurd hr h

/-- Halted and Faulted are terminal for a run, whatever its step and its length. -/
theorem runBy_of_not_running (stepFn : State → Result) (n : Nat) (s : State) (h : s.run ≠ .running) :
    runBy stepFn n s = .next s := by
  cases n with
  | zero => rfl
  | succ n =>
    cases hr : s.run with
    | running => exact absurd hr h
    | halted => simp [runBy, hr]
    | faulted r => simp [runBy, hr]

/-- A reset that accepts its image gives the reset state with the image at address 0. -/
theorem eq_of_hostReset (image : List Byte) (s t : State) (h : hostReset image s = some t) :
    t = State.reset.setMem (Memory.setBytes [] 0 image) := by
  unfold hostReset at h
  split at h
  · exact (Option.some.inj h).symm
  · cases h

/-- The transitions of run from Running. -/
theorem step_run_transitions (s t : State) (hr : s.run = .running) (h : step s = .next t) :
    (t.run = .halted ↔ fetchInstr s = .instr .hlt) ∧ (t.isFaulted = true ↔ ∃ r, t = s.raise r) ∧
    (fetchInstr s ≠ .instr .hlt → (¬ ∃ r, t = s.raise r) → t.run = .running) := by
  rcases step_run_cases s t hr h with ⟨hf, ht⟩ | ⟨hf, ⟨r, rfl⟩ | ht⟩
  · have hF := isFaulted_eq_false t (.inl ht)
    exact ⟨by simp [hf, ht], by simp [hF, ne_raise hF], fun hn => absurd hf hn⟩
  · exact ⟨by simp [hf], by simp, fun _ hn => absurd ⟨r, rfl⟩ hn⟩
  · have hF := isFaulted_eq_false t (.inr ht)
    exact ⟨by simp [hf, ht], by simp [hF, ne_raise hF], fun _ _ => ht⟩

/-- Settles O15: from Running by what a step can do to the run state; the terminal states, reset and quit by their own
rules. -/
theorem runStateTransitions : Obligations.RunStateTransitions := by
  refine ⟨step_run_transitions, fun s h => ⟨step_of_not_running s h, fun n => runBy_of_not_running step n s h⟩, ?_,
    fun _ => rfl⟩
  intro image s t h
  rw [eq_of_hostReset image s t h]
  rfl

/-! ### The flags -/

@[simp] theorem setFlags_setFlags (s : State) (f g : Flags) : (s.setFlags f).setFlags g = s.setFlags g := rfl

@[simp] theorem setFlags_self (s : State) : s.setFlags s.flags = s := rfl

@[simp] theorem effAddr_setFlags (s : State) (f : Flags) (rb rc : Reg) :
    effAddr (s.setFlags f) rb rc = effAddr s rb rc := rfl

/-- What CMP answers. -/
theorem exec_cmp (ra rb : Reg) (s : State) :
    exec (.cmp ra rb) s = .next ((s.setFlags (compareFlags s.flags (s.reg ra) (s.reg rb))).advance 2) := rfl

/-- Only CMP writes F. -/
theorem flags_of_exec_of_not_cmp (i : Instr) (s t : State) (hc : ∀ ra rb, i ≠ .cmp ra rb) (h : exec i s = .next t) :
    t.flags = s.flags := by
  cases exec_effect i s t h with
  | regs ws _ _ _ _ _ =>
    obtain ⟨-, hflags, -⟩ := setRegs_facts ws s
    exact hflags
  | cmp ra rb hi => exact absurd hi (hc ra rb)
  | raiseAccess | raiseDiv | raiseInvalid | halt | st | jump | taken | notTaken => rfl

/-- An instruction that is no conditional jump and no CMP does the same whatever F holds, and carries F along. -/
theorem exec_setFlags (i : Instr) (s t : State) (f : Flags) (hj : ∀ k imm, i ≠ condInstr k imm)
    (hc : ∀ ra rb, i ≠ .cmp ra rb) (h : exec i s = .next t) : exec i (s.setFlags f) = .next (t.setFlags f) := by
  cases i with
  | cmp ra rb => exact absurd rfl (hc ra rb)
  | je imm => exact absurd rfl (hj .je imm)
  | jne imm => exact absurd rfl (hj .jne imm)
  | jg imm => exact absurd rfl (hj .jg imm)
  | jge imm => exact absurd rfl (hj .jge imm)
  | jl imm => exact absurd rfl (hj .jl imm)
  | jle imm => exact absurd rfl (hj .jle imm)
  | div ra rb rc rd =>
    rcases execDiv_cases ra rb rc rd s with ⟨hz, e⟩ | ⟨hz, e⟩ <;> cases e.symm.trans h <;>
      simp only [exec, execDiv, setFlags_reg, hz, ↓reduceIte] <;> rfl
  | st ra rb rc =>
    rcases memWriteWord_cases s.mem (effAddr s rb rc) (s.reg ra) with ⟨-, e⟩ | ⟨-, e⟩ <;>
      simp only [exec, execSt, effAddr_setFlags, setFlags_mem, setFlags_reg, e] at h ⊢ <;> cases h <;> rfl
  | ld ra rb rc =>
    rcases memReadWord_cases s.mem (effAddr s rb rc) with ⟨-, e⟩ | ⟨-, e⟩ <;>
      simp only [exec, execLd, effAddr_setFlags, setFlags_mem, e] at h ⊢ <;> cases h <;> rfl
  | nop | mov | not | neg | movi | mul | add | sub | and | or | xor | shl | shr | sar | jmp | jmpr | call | callr | ret
    | hlt | invalid => cases h; rfl

/-- A condition reads S and Z of the flags alone. -/
theorem condTaken_congr (table : Config.CondTable) (k : Config.Cond) (f g : Flags) (hs : f.sign = g.sign)
    (hz : f.nonzero = g.nonzero) : condTaken table k f = condTaken table k g := by
  simp only [condTaken, hs, hz]

/-- A conditional jump does the same under any F with the same S and Z. -/
theorem exec_condInstr_setFlags (k : Config.Cond) (imm : Word) (s t : State) (f : Flags) (hs : f.sign = s.flags.sign)
    (hz : f.nonzero = s.flags.nonzero) (h : exec (condInstr k imm) s = .next t) :
    exec (condInstr k imm) (s.setFlags f) = .next (t.setFlags f) := by
  have htaken := condTaken_congr condInForce k f s.flags hs hz
  rw [exec_condInstr] at h ⊢
  rcases condJump_cases condInForce k imm s with ⟨hc, e⟩ | ⟨hc, e⟩ <;> cases e.symm.trans h <;>
    simp only [condJump, setFlags_flags, htaken, hc] <;> rfl

/-- An instruction that is no conditional jump answers, with F replaced, a next state that differs in F alone. -/
theorem exec_setFlags_of_not_condInstr (i : Instr) (s t : State) (f : Flags) (hj : ∀ k imm, i ≠ condInstr k imm)
    (h : exec i s = .next t) : ∃ t', exec i (s.setFlags f) = .next t' ∧ t'.setFlags t.flags = t := by
  by_cases hc : ∃ ra rb, i = .cmp ra rb
  · obtain ⟨ra, rb, rfl⟩ := hc
    cases (exec_cmp ra rb s).symm.trans h
    exact ⟨_, exec_cmp ra rb _, rfl⟩
  · push Not at hc
    exact ⟨_, exec_setFlags i s t f hj hc h, by simp⟩

/-- Settles O21: CMP by its one equation, every other instruction by what its rule does when F is replaced. -/
theorem flagsWrittenByCmpReadByConditionalJumps : Obligations.FlagsWrittenByCmpReadByConditionalJumps := by
  refine ⟨fun i s t h hne => ?_, fun ra rb s t h => ?_, exec_setFlags_of_not_condInstr, fun ra rb s t f h => ?_,
    exec_condInstr_setFlags⟩
  · by_contra hc
    push Not at hc
    exact hne (flags_of_exec_of_not_cmp i s t hc h)
  · cases (exec_cmp ra rb s).symm.trans h
    exact ⟨rfl, rfl⟩
  · cases (exec_cmp ra rb s).symm.trans h
    exact ⟨_, exec_cmp ra rb _, rfl, rfl⟩

end Sys2Proof.Proofs.RunAndFlags

/-! The encoding (30_encoding.md R53, R55): the two-tier index of an opcode byte, and the row of the table that an encoding's
first byte names. -/

namespace Sys2Proof.Proofs.Encoding

open Sys2Proof Sys2Proof.Machine

/-! ### The instruction index -/

theorem toNat_hiNibble (b : Byte) : (hiNibble b).toNat = b.toNat / 16 := by
  have hb := b.isLt
  rw [hiNibble, BitVec.extractLsb'_toNat, Nat.shiftRight_eq_div_pow]
  omega

theorem toNat_loNibble (b : Byte) : (loNibble b).toNat = b.toNat % 16 := BitVec.extractLsb'_toNat 0 4 b

theorem hiNibble_eq_zero_iff (b : Byte) : hiNibble b = 0 ↔ b.toNat / 16 = 0 := by
  rw [← toNat_hiNibble]
  exact BitVec.toNat_eq

/-- The two-tier rule on byte values (30_encoding.md R55). -/
theorem instrIndex_eq (b : Byte) :
    instrIndex b = if b.toNat / 16 = 0 then b.toNat % 16 else 15 + b.toNat / 16 := by
  simp only [instrIndex, hiNibble_eq_zero_iff, toNat_hiNibble, toNat_loNibble]

/-- Settles O2, from the rule on byte values: tier 1 has the indices 0 to 15, tier 2 the indices 16 to 30. -/
theorem instrIndexIsTwoTier : Obligations.InstrIndexIsTwoTier := by
  intro b
  have hb := b.isLt
  rw [instrIndex_eq]
  split
  case isTrue hz =>
    exact ⟨fun _ => rfl, fun h => absurd hz h, by omega, by omega⟩
  case isFalse hz =>
    exact ⟨fun h => absurd h hz, fun _ => rfl, by omega, by omega⟩

/-! ### The first byte and the length of an encoding -/

/-- Every instruction but the invalid row stands in a row of the table (30_encoding.md R57, R63). -/
theorem exists_mnemonic_of_wf (i : Instr) (h : i.wf = true) : ∃ mn, i.mnemonic = some mn := by
  cases i with
  | invalid low => cases h
  | _ => exact ⟨_, rfl⟩

/-- An encoding begins with the opcode byte of its row's tier: the index alone in tier 1, the selector above a register field
in tier 2 (30_encoding.md R54). -/
theorem encodeWith_tiers (m : Config.OpMap) (i : Instr) (mn : Config.Mnemonic) (hi : i.mnemonic = some mn) :
    (mn.inTier2 = false ∧ ∃ tail, encodeWith m i = tier1 (idxNibble m mn) :: tail) ∨
    (mn.inTier2 = true ∧ ∃ r tail, encodeWith m i = tier2 (selNibble m mn) r :: tail) := by
  cases i with
  | invalid low => cases hi
  | nop | mov | not | neg | cmp | mul | div | jmp | je | jne | jg | jge | jl | jle | call | ret =>
    cases hi; exact .inl ⟨rfl, _, rfl⟩
  | movi | st | ld | add | sub | and | or | xor | shl | shr | sar | jmpr | callr | hlt =>
    cases hi; exact .inr ⟨rfl, _, _, rfl⟩

/-- The first byte of an encoding resolves to the instruction's own row (30_encoding.md R55, R57). -/
theorem encodeWith_head_at {m : Config.OpMap} (h : Config.LegalOpMap m) (i : Instr) (mn : Config.Mnemonic)
    (hi : i.mnemonic = some mn) : ∃ b0 tail, encodeWith m i = b0 :: tail ∧ m[instrIndex b0]? = some mn := by
  rcases encodeWith_tiers m i mn hi with ⟨ht, tail, e⟩ | ⟨ht, r, tail, e⟩
  · exact ⟨_, tail, e, instrIndex_idxNibble h ht⟩
  · exact ⟨_, tail, e, instrIndex_selNibble h ht r⟩

/-- An encoding is as long as its row's entry of the table says, under every OPMAP (30_encoding.md R53, R57). -/
theorem encodeWith_length (m : Config.OpMap) (i : Instr) : (encodeWith m i).length = lengthOfEntry i.mnemonic := by
  cases i <;> rfl

/-- Settles O1: the first byte names the instruction's row, the row fixes the shape, and the shape the length. -/
theorem encodingLengthIsShapeLength : Obligations.EncodingLengthIsShapeLength := by
  refine ⟨rfl, fun m hm i hwf => ?_⟩
  obtain ⟨mn, hi⟩ := exists_mnemonic_of_wf i hwf
  obtain ⟨b0, tail, hcons, hat⟩ := encodeWith_head_at hm i mn hi
  have hlen : (encodeWith m i).length = (shapeOf mn).length := by rw [encodeWith_length, hi]; rfl
  have hshape : shapeOfIndexWith m (instrIndex b0) = some (shapeOf mn) := by rw [shapeOfIndexWith, hat]; rfl
  obtain ⟨-, -, hne⟩ := lengthOfEntry_bounds i.mnemonic
  exact ⟨b0, tail, shapeOf mn, hcons, hshape, hlen, encodeWith_length m i ▸ hne⟩

end Sys2Proof.Proofs.Encoding

/-! MOVI (40_move_unary.md R77): its encoding and decoding, its rule with its frame, and its step from the bytes in memory. -/

namespace Sys2Proof.Proofs.MoveImmediate

open Sys2Proof Sys2Proof.Machine

/-! ### Fetching the instruction that the bytes at pc encode -/

/-- A shorter access from an address inside memory is inside memory. -/
theorem inRange_of_le {addr : Word} {k n : Nat} (h : inRange addr n = true) (hk : k ≤ n) : inRange addr k = true := by
  simp only [inRange, Bool.and_eq_true, decide_eq_true_eq] at h ⊢
  omega

/-- The fetch gives the instruction that a run of bytes from pc decodes to, though it reads that instruction's own bytes
alone (46_dispatch_loop_halt.md R120, 30_encoding.md R69). -/
theorem fetchInstr_of_decode_bytes (s : State) (n : Nat) (i : Instr) (rest : List Byte) (hin : inRange s.pc n = true)
    (hd : decode (s.mem.bytes s.pc.toNat n) = .ok (i, rest)) : fetchInstr s = .instr i := by
  cases n with
  | zero => cases hd
  | succ n =>
    obtain ⟨b0, tail, hcons, hlen, -, -⟩ := (decode_ok_iff _ _ _).1 hd
    have hb0 : s.mem.get s.pc.toNat = b0 := (List.cons.inj hcons).1
    rw [← hb0, bytes_length] at hlen
    have hown : decode (s.mem.bytes s.pc.toNat (instrLength (s.mem.get s.pc.toNat))) = .ok (i, []) := by
      rw [← take_bytes s.mem s.pc.toNat _ _ hlen]
      exact decode_take _ _ _ _ hd
    rcases fetchInstr_cases s with ⟨hout, -⟩ | ⟨-, hout, -⟩ | ⟨-, -, j, hj, hf⟩
    · rw [inRange_of_le hin (by omega)] at hout
      cases hout
    · rw [inRange_of_le hin hlen] at hout
      cases hout
    · cases hj.symm.trans hown
      exact hf

/-! ### The encoding -/

/-- MOVI's opcode byte under the OPMAP in force: selector 1 above the register field (30_encoding.md R54, R57). -/
theorem tier2_selNibble_movi (ra : Reg) : tier2 (selNibble opMapInForce .movi) ra = 0x10 ||| ra.setWidth 8 := by
  revert ra; decide

theorem encode_movi (ra : Reg) (imm : Word) :
    encode (.movi ra imm) = [0x10 ||| ra.setWidth 8, imm.extractLsb' 0 8, imm.extractLsb' 8 8, imm.extractLsb' 16 8,
      imm.extractLsb' 24 8] :=
  congrArg (· :: leBytes imm) (tier2_selNibble_movi ra)

/-- An opcode byte of MOVI's row is decoded to MOVI (30_encoding.md R57, R60). -/
theorem decodeBytesWith_of_at_movi {m : Config.OpMap} {b0 : Byte} (h : m[instrIndex b0]? = some .movi)
    (b1 b2 b3 b4 : Byte) : decodeBytesWith m b0 b1 b2 b3 b4 = .movi (loNibble b0) (leWord b1 b2 b3 b4) := by
  rw [decodeBytesWith, h]

/-- MOVI's encoding decodes back under every legal OPMAP, and the bytes after it are left over. -/
theorem decodeWith_encodeWith_movi {m : Config.OpMap} (hm : Config.LegalOpMap m) (ra : Reg) (imm : Word)
    (rest : List Byte) : decodeWith m (encodeWith m (.movi ra imm) ++ rest) = .ok (.movi ra imm, rest) := by
  have hat := instrIndex_selNibble hm (mn := .movi) rfl ra
  have hlen : instrLengthWith m (tier2 (selNibble m .movi) ra) = 5 := instrLengthWith_of_at hat
  refine (decodeWith_ok_iff _ _ _ _).2 ⟨_, leBytes imm ++ rest, rfl, ?_, ?_, ?_⟩
  · simp [hlen, encodeWith]
  · simp [decodeBytesWith_of_at_movi hat, leBytes]
  · rw [hlen]; rfl

/-! ### The rule and the step -/

/-- A register write that falls through writes that register and pc and nothing else. -/
theorem onlyRegs_setReg_advance (s : State) (ra : Reg) (v : Word) (n : Nat) :
    OnlyRegs s ((s.setReg ra v).advance n) [ra] where
  regs q hq := setReg_reg_ne s ra v q (List.ne_of_not_mem_cons hq)
  flags := rfl
  mem _ := rfl
  run := rfl

theorem exec_movi (ra : Reg) (imm : Word) (s : State) :
    exec (.movi ra imm) s = .next ((s.setReg ra imm).advance 5) := rfl

/-- A Running machine with a MOVI's bytes at pc, inside memory, loads the immediate and falls through. -/
theorem step_of_movi_bytes (s : State) (ra : Reg) (imm : Word) (hr : s.run = .running) (hin : inRange s.pc 5 = true)
    (hb : s.mem.bytes s.pc.toNat 5 = encode (.movi ra imm)) : step s = .next ((s.setReg ra imm).advance 5) := by
  have hd : decode (s.mem.bytes s.pc.toNat 5) = .ok (.movi ra imm, []) := by
    rw [hb, ← List.append_nil (encode _)]
    exact decodeWith_encodeWith_movi legal_opMapInForce ra imm []
  rw [step_of_instr s _ hr (fetchInstr_of_decode_bytes s 5 _ [] hin hd), exec_movi]

/-- Settles O27: the round trip under the OPMAP in force, the one equation of MOVI's rule, and for the source's example the
step of a MOVI whose bytes stand at address 0. -/
theorem moviLoadsTheImmediate : Obligations.MoviLoadsTheImmediate := by
  refine ⟨encode_movi, decodeWith_encodeWith_movi legal_opMapInForce, fun s ra imm => ?_, fun s hr hpc hb => ?_⟩
  · exact ⟨_, exec_movi ra imm s, onlyRegs_setReg_advance s ra imm 5, by simp, rfl⟩
  · have hexample : encode (.movi 0 0x78563412) = [0x10, 0x12, 0x34, 0x56, 0x78] := by decide
    have hin : inRange s.pc 5 = true := by rw [hpc]; decide
    have hbytes : s.mem.bytes s.pc.toNat 5 = encode (.movi 0 0x78563412) := by rw [hpc, hexample]; exact hb
    exact ⟨_, step_of_movi_bytes s 0 0x78563412 hr hin hbytes, by simp, by simp [hpc]⟩

end Sys2Proof.Proofs.MoveImmediate

/-! Halted and Faulted are terminal (46_dispatch_loop_halt.md R126): for the step under any OPMAP and any rules of the
instructions, and for the core's own run. -/

namespace Sys2Proof.Proofs.Terminal

open Sys2Proof Sys2Proof.Machine Sys2Proof.Proofs.RunAndFlags

/-- Halted and Faulted are terminal for a step, whatever the OPMAP and the rules of the instructions. -/
theorem stepBy_of_not_running (m : Config.OpMap) (ex : Instr → State → Result) (s : State) (h : s.run ≠ .running) :
    stepBy m ex s = .next s := by
  rcases stepBy_cases m ex s with ⟨-, e⟩ | ⟨hr, -⟩ | ⟨hr, -⟩
  · exact e
  · exact absurd hr h
  · exact absurd hr h

/-- A core's run of any length stays in a state that the core's step answers itself. -/
theorem coreRun_of_step_self (M : Host.Core) (s : M.State) (h : M.step s = .next s) (n : Nat) : M.run n s = .next s := by
  induction n with
  | zero => rfl
  | succ n ih =>
    rw [Host.Core.run, h]
    exact ih

/-- Settles O11: the host's runs look at the run state before each step; the core's run does not, and stays because its step
does. -/
theorem terminalStatesStay : Obligations.TerminalStatesStay := by
  intro s h
  have hstep : step s = .next s := step_of_not_running s h
  refine ⟨hstep, hstep, rfl, fun n => ?hostRun, fun n => ?coreRun, fun p => ⟨?stepWith, fun n => ?hostRunWith⟩⟩
  case hostRun => exact runBy_of_not_running step n s h
  case coreRun => exact coreRun_of_step_self core s hstep n
  case stepWith => exact stepBy_of_not_running p.opMap (execWith p) s h
  case hostRunWith => exact runBy_of_not_running (stepWith p) n s h

end Sys2Proof.Proofs.Terminal

/-! The decoder and the encoder undo each other (30_encoding.md R74), the decoder is total on bytes and blind to the bytes past
the instruction's own (R69), and the bytes 0xF0 to 0xFF alone are no instruction (R63). -/

namespace Sys2Proof.Proofs.RoundTrip

open Sys2Proof Sys2Proof.Machine Sys2Proof.Proofs.Encoding

/-! ### The decoder on the instruction's own bytes -/

/-- A list at least as long as its opcode byte asks for decodes, and the bytes past that length are left over. -/
theorem decodeWith_of_length_le (m : Config.OpMap) (b0 : Byte) (tail : List Byte)
    (h : instrLengthWith m b0 ≤ (b0 :: tail).length) :
    ∃ i, decodeWith m (b0 :: tail) = .ok (i, (b0 :: tail).drop (instrLengthWith m b0)) :=
  ⟨_, (decodeWith_ok_iff _ _ _ _).2 ⟨b0, tail, rfl, h, rfl, rfl⟩⟩

/-- Bytes that are just one instruction decode to it whatever stands after them (30_encoding.md R69). -/
theorem decodeWith_append (m : Config.OpMap) (bs more : List Byte) (i : Instr) (h : decodeWith m bs = .ok (i, [])) :
    decodeWith m (bs ++ more) = .ok (i, more) := by
  obtain ⟨b0, tail, rfl, hle, hi, hrest⟩ := (decodeWith_ok_iff _ _ _ _).1 h
  have hlen : tail.length + 1 = instrLengthWith m b0 := le_antisymm (List.drop_eq_nil_iff.1 hrest.symm) hle
  refine (decodeWith_ok_iff _ _ _ _).2 ⟨b0, tail ++ more, rfl, ?_, ?_, ?_⟩
  · simp only [List.length_cons, List.length_append]; omega
  · rw [hi]
    apply decodeBytesWith_congr <;> intro hk <;> exact (List.getD_append _ _ _ _ (by omega)).symm
  · rw [List.drop_append, ← hrest, ← hlen]; simp

/-- Settles O5: the list decodes, its own bytes alone decode to the same, and bytes may be put after those. -/
theorem decodeTotalOnOwnBytes : Obligations.DecodeTotalOnOwnBytes := by
  intro m b0 tail more hlen
  obtain ⟨i, hi⟩ := decodeWith_of_length_le m b0 tail hlen
  exact ⟨i, hi, decodeWith_append m _ more i (decodeWith_take m b0 tail i _ hi)⟩

/-! ### Decoding an encoded instruction -/

/-- An encoding decodes to its instruction when its first byte names the instruction's row and the bytes are read back. -/
theorem decodeWith_encodeWith_of_at {m : Config.OpMap} {i : Instr} {b0 : Byte} {tail : List Byte}
    (he : encodeWith m i = b0 :: tail) (hat : m[instrIndex b0]? = i.mnemonic)
    (hi : decodeBytesWith m b0 (tail.getD 0 0) (tail.getD 1 0) (tail.getD 2 0) (tail.getD 3 0) = i) :
    decodeWith m (encodeWith m i) = .ok (i, []) := by
  have hlen : instrLengthWith m b0 = (encodeWith m i).length := by rw [instrLengthWith_eq, hat, encodeWith_length]
  exact (decodeWith_ok_iff _ _ _ _).2 ⟨b0, tail, he, hlen.le, hi.symm, (List.drop_eq_nil_of_le hlen.ge).symm⟩

/-- The index 30 of the invalid row's opcode byte names no instruction (30_encoding.md R63). -/
theorem at_instrIndex_invalid {m : Config.OpMap} (h : Config.LegalOpMap m) (low : Nibble) :
    m[instrIndex (tier2 15 low)]? = none := by
  rw [instrIndex_tier2 15 low (by decide)]
  exact h.at_ge (by decide)

/-- Under every legal OPMAP an encoding decodes to its instruction: its opcode byte names the instruction's row, and splitting
the operand bytes undoes joining them. -/
theorem decodeWith_encodeWith {m : Config.OpMap} (h : Config.LegalOpMap m) (i : Instr) :
    decodeWith m (encodeWith m i) = .ok (i, []) := by
  cases i with
  | invalid low =>
    refine decodeWith_encodeWith_of_at rfl (at_instrIndex_invalid h low) ?_
    rw [decodeBytesWith, at_instrIndex_invalid h, loNibble_tier2]
  | nop | mov | not | neg | cmp | mul | div | jmp | je | jne | jg | jge | jl | jle | call | ret =>
    refine decodeWith_encodeWith_of_at rfl (instrIndex_idxNibble h rfl) ?_
    rw [decodeBytesWith, instrIndex_idxNibble h] <;> simp [leBytes, Config.Mnemonic.inTier2]
  | movi | st | ld | add | sub | and | or | xor | shl | shr | sar | jmpr | callr | hlt =>
    refine decodeWith_encodeWith_of_at rfl (instrIndex_selNibble h rfl _) ?_
    rw [decodeBytesWith, instrIndex_selNibble h] <;> simp [leBytes, Config.Mnemonic.inTier2]

/-- An encoding is just one instruction's bytes, so any bytes may follow. -/
theorem decodeWith_encodeWith_append {m : Config.OpMap} (h : Config.LegalOpMap m) (i : Instr) (rest : List Byte) :
    decodeWith m (encodeWith m i ++ rest) = .ok (i, rest) :=
  decodeWith_append m _ rest i (decodeWith_encodeWith h i)

/-- Settles O3: under every legal OPMAP, and so under the one in force. -/
theorem decodeOfEncode : Obligations.DecodeOfEncode :=
  ⟨decodeWith_encodeWith_append legal_opMapInForce, fun _ h => decodeWith_encodeWith_append h⟩

/-! ### Encoding a decoded instruction -/

@[simp] theorem leBytes_leWord (b0 b1 b2 b3 : Byte) : leBytes (leWord b0 b1 b2 b3) = [b0, b1, b2, b3] := by
  simp [leBytes]

/-- The selector of HLT, whose index every legal OPMAP keeps at 29 (30_encoding.md R57). -/
theorem selNibble_hlt {m : Config.OpMap} (h : Config.LegalOpMap m) : selNibble m .hlt = 14 := by
  rw [selNibble, h.idxOf_eq h.hlt]; rfl

/-- A byte that names no instruction has the high nibble 0xF (30_encoding.md R63). -/
theorem eq_tier2_of_at_none {m : Config.OpMap} (h : Config.LegalOpMap m) {b0 : Byte} (hat : m[instrIndex b0]? = none) :
    b0 = tier2 15 (loNibble b0) := by
  have hge : 30 ≤ instrIndex b0 := h.length ▸ List.getElem?_eq_none_iff.1 hat
  have hle := instrIndex_le b0
  rcases byte_tiers b0 with ⟨-, hlt⟩ | ⟨e, -, hn⟩
  · omega
  · have hhi : hiNibble b0 = 15 := BitVec.eq_of_toNat_eq (by rw [hn]; simp; omega)
    rw [hhi] at e
    exact e

/-- The encoding of a decoded instruction is its own bytes, but for HLT, whose low nibble the decoder drops (30_encoding.md
R64). -/
theorem encodeWith_decodeBytesWith {m : Config.OpMap} (h : Config.LegalOpMap m) (b0 b1 b2 b3 b4 : Byte)
    (hne : m[instrIndex b0]? ≠ some .hlt) :
    encodeWith m (decodeBytesWith m b0 b1 b2 b3 b4) = [b0, b1, b2, b3, b4].take (instrLengthWith m b0) := by
  rw [instrLengthWith_eq, decodeBytesWith]
  rcases hat : m[instrIndex b0]? with _ | mn
  · exact congrArg (fun b => [b]) (eq_tier2_of_at_none h hat).symm
  · cases mn with
    | hlt => exact absurd hat hne
    | nop | mov | not | neg | cmp | mul | div | jmp | je | jne | jg | jge | jl | jle | call | ret =>
      simp [encodeWith, ← eq_tier1_of_at h hat rfl, lengthOfEntry, shapeOf, Shape.length]
    | movi | st | ld | add | sub | and | or | xor | shl | shr | sar | jmpr | callr =>
      simp [encodeWith, ← eq_tier2_of_at h hat rfl, lengthOfEntry, shapeOf, Shape.length]

/-- The bytes that a list holds, for at most five of them, read one by one. -/
theorem take_cons_eq_take_getD (b0 : Byte) (tail : List Byte) {n : Nat} (hn : n ≤ 5) (h : n ≤ (b0 :: tail).length) :
    (b0 :: tail).take n = [b0, tail.getD 0 0, tail.getD 1 0, tail.getD 2 0, tail.getD 3 0].take n := by
  refine List.ext_getElem (by simp at h ⊢; omega) fun k hk _ => ?_
  rw [List.length_take] at hk
  have hk5 : k < 5 := by omega
  have hkt : k < tail.length + 1 := by simp at hk; omega
  interval_cases k <;> simp <;> rw [List.getElem?_eq_getElem (by omega)] <;> rfl

/-- Bytes that decode are the decoded instruction's encoding and what is left over, or they begin with a HLT whose low nibble
is not zero. -/
theorem eq_encodeWith_of_decodeWith {m : Config.OpMap} (h : Config.LegalOpMap m) (bs : List Byte) (i : Instr)
    (rest : List Byte) (hd : decodeWith m bs = .ok (i, rest)) :
    bs = encodeWith m i ++ rest ∨ (i = .hlt ∧ ∃ low : Nibble, low ≠ 0 ∧ bs = joinNibbles 0xE#4 low :: rest) := by
  obtain ⟨b0, tail, rfl, hle, hi, hrest⟩ := (decodeWith_ok_iff _ _ _ _).1 hd
  by_cases hat : m[instrIndex b0]? = some .hlt
  · have hb0 : b0 = joinNibbles 0xE#4 (loNibble b0) := by
      have := eq_tier2_of_at h hat rfl
      rwa [selNibble_hlt h] at this
    have hhlt : i = .hlt := by rw [hi, decodeBytesWith, hat]
    have htail : rest = tail := by rw [hrest, instrLengthWith_of_at hat]; rfl
    by_cases hlow : loNibble b0 = 0
    · left
      rw [hlow] at hb0
      rw [hhlt, htail, encodeWith, selNibble_hlt h, hb0]; rfl
    · exact .inr ⟨hhlt, loNibble b0, hlow, by rw [htail, ← hb0]⟩
  · left
    rw [hi, encodeWith_decodeBytesWith h _ _ _ _ _ hat, hrest,
      ← take_cons_eq_take_getD b0 tail (instrLengthWith_bounds m b0).2 hle, List.take_append_drop]

/-- Settles O4: under every legal OPMAP, and so under the one in force. -/
theorem encodeOfDecode : Obligations.EncodeOfDecode :=
  ⟨eq_encodeWith_of_decodeWith legal_opMapInForce, fun _ h => eq_encodeWith_of_decodeWith h⟩

/-! ### Invalid opcode bytes -/

/-- The invalid row alone is not well-formed, and it alone stands in no row of the table (30_encoding.md R63). -/
theorem wf_eq_false_iff (i : Instr) : i.wf = false ↔ i.mnemonic = none := by
  cases i <;> simp [Instr.wf, Instr.mnemonic]

/-- Under a legal OPMAP the bytes that name no instruction are 0xF0 to 0xFF. -/
theorem at_instrIndex_eq_none_iff {m : Config.OpMap} (h : Config.LegalOpMap m) (b0 : Byte) :
    m[instrIndex b0]? = none ↔ 0xF0 ≤ b0.toNat := by
  obtain ⟨-, -, hiff, -⟩ := instrIndexIsTwoTier b0
  rw [List.getElem?_eq_none_iff, h.length]
  omega

/-- A byte that names no instruction is read as the invalid row with its low nibble. -/
theorem decodeBytesWith_of_at_none {m : Config.OpMap} {b0 : Byte} (h : m[instrIndex b0]? = none) (b1 b2 b3 b4 : Byte) :
    decodeBytesWith m b0 b1 b2 b3 b4 = .invalid (loNibble b0) := by
  rw [decodeBytesWith, h]

/-- Settles O6: what is decoded stands in the row that the first byte names, and 0xF0 to 0xFF name none. -/
theorem invalidBytesAreF0ToFF : Obligations.InvalidBytesAreF0ToFF := by
  intro m h b0 tail rest i hd
  obtain ⟨_, _, e, -, rfl, hrest⟩ := (decodeWith_ok_iff _ _ _ _).1 hd
  cases e
  have hnone := at_instrIndex_eq_none_iff h b0
  refine ⟨by rw [wf_eq_false_iff, mnemonic_decodeBytesWith, hnone], fun hge => ?_⟩
  have hat := hnone.2 hge
  refine ⟨by rw [hrest, instrLengthWith_eq, hat]; rfl, loNibble b0, decodeBytesWith_of_at_none hat _ _ _ _, ?_⟩
  have hb := b0.isLt
  rw [toNat_loNibble]
  omega

/-! ### Words written out -/

/-- Settles O7: each word is decoded under the OPMAP in force. -/
theorem printedWordsDecode : Obligations.PrintedWordsDecode := by
  unfold Obligations.PrintedWordsDecode
  decide

end Sys2Proof.Proofs.RoundTrip

/-! Faults (60_exceptions.md R134 to R140): the info values, what the fetch raises, what an instruction raises, and that a
faulting step changes nothing but `run`. -/

namespace Sys2Proof.Proofs.Faults

open Sys2Proof Sys2Proof.Machine Sys2Proof.Proofs.RunAndFlags Sys2Proof.Proofs.Encoding Sys2Proof.Proofs.RoundTrip

/-! ### Info values -/

/-- An access that starts outside memory names its own address (60_exceptions.md R135). -/
theorem outOfBoundsAt_of_outside {a : Word} (h : inRange a 1 = false) : outOfBoundsAt a = ⟨.outOfBoundsAccess, a⟩ := by
  simp [outOfBoundsAt, lowestOutside, h]

/-- An access that starts inside memory and leaves it names MEM_SIZE (60_exceptions.md R135). -/
theorem outOfBoundsAt_of_inside {a : Word} (h : inRange a 1 = true) :
    outOfBoundsAt a = ⟨.outOfBoundsAccess, BitVec.ofNat 32 Config.memSize⟩ := by
  simp [outOfBoundsAt, lowestOutside, h]

theorem not_outsideMemory_iff (a : Word) : ¬ OutsideMemory a ↔ inRange a 1 = true := by
  rw [outsideMemory_iff, Bool.not_eq_false]

theorem not_insideMemory_iff (a : Word) (n : Nat) : ¬ InsideMemory a n ↔ inRange a n = false := by
  rw [insideMemory_iff, Bool.not_eq_true]

/-! ### The fetch's faults, in order -/

/-- Under any OPMAP a pc outside memory is a fault at pc (46_dispatch_loop_halt.md R120). -/
theorem fetchInstrWith_of_outside (m : Config.OpMap) {s : State} (h : inRange s.pc 1 = false) :
    fetchInstrWith m s = .raised ⟨.outOfBoundsAccess, s.pc⟩ := by
  rw [← outOfBoundsAt_of_outside h]
  rcases fetchInstrWith_cases m s with ⟨-, e⟩ | ⟨h1, -, -⟩ | ⟨h1, -, -⟩
  · exact e
  · exact absurd h1 (by simp [h])
  · exact absurd h1 (by simp [h])

theorem fetchInstr_of_outside {s : State} (h : inRange s.pc 1 = false) :
    fetchInstr s = .raised ⟨.outOfBoundsAccess, s.pc⟩ := fetchInstrWith_of_outside opMapInForce h

theorem fetchInstr_of_leaving {s : State} (h1 : inRange s.pc 1 = true)
    (h : inRange s.pc (instrLength (opcodeByte s)) = false) :
    fetchInstr s = .raised ⟨.outOfBoundsAccess, BitVec.ofNat 32 Config.memSize⟩ := by
  rw [← outOfBoundsAt_of_inside h1]
  rcases fetchInstr_cases s with ⟨h0, -⟩ | ⟨-, -, e⟩ | ⟨-, h2, -⟩
  · exact absurd h1 (by simp [h0])
  · exact e
  · exact absurd (h.symm.trans h2) (by simp)

/-- The fetch raises a fault exactly when its bytes do not all lie inside memory (46_dispatch_loop_halt.md R120). -/
theorem fetchInstr_eq_raised_iff (s : State) :
    (∃ r, fetchInstr s = .raised r) ↔
      inRange s.pc 1 = false ∨ inRange s.pc 1 = true ∧ inRange s.pc (instrLength (opcodeByte s)) = false := by
  constructor
  · rintro ⟨r, e⟩
    rcases fetchInstr_cases s with ⟨h, -⟩ | ⟨h1, h2, -⟩ | ⟨-, -, i, -, e'⟩
    · exact .inl h
    · exact .inr ⟨h1, h2⟩
    · cases e.symm.trans e'
  · rintro (h | ⟨h1, h2⟩)
    · exact ⟨_, fetchInstr_of_outside h⟩
    · exact ⟨_, fetchInstr_of_leaving h1 h2⟩

/-- Every fault of the fetch is OutOfBoundsAccess at pc. -/
theorem eq_outOfBoundsAt_of_fetchInstr {s : State} {r : Raised} (h : fetchInstr s = .raised r) :
    r = outOfBoundsAt s.pc := by
  rcases fetchInstr_cases s with ⟨-, e⟩ | ⟨-, -, e⟩ | ⟨-, -, i, -, e⟩ <;> cases e.symm.trans h <;> rfl

/-- An invalid opcode byte inside memory is fetched as the invalid row (30_encoding.md R63). -/
theorem fetchInstr_of_invalid {s : State} (h1 : inRange s.pc 1 = true) (h : 0xF0 ≤ (opcodeByte s).toNat) :
    fetchInstr s = .instr (.invalid (loNibble (opcodeByte s))) := by
  have hat := (at_instrIndex_eq_none_iff legal_opMapInForce (opcodeByte s)).2 h
  have hlen : instrLength (opcodeByte s) = 1 := by rw [instrLength, instrLengthWith_eq, hat]; rfl
  rcases fetchInstr_cases s with ⟨h0, -⟩ | ⟨-, h2, -⟩ | ⟨-, -, i, -, e⟩
  · exact absurd h1 (by simp [h0])
  · exact absurd (hlen ▸ h2 : inRange s.pc 1 = false) (by simp [h1])
  · obtain ⟨-, -, b1, b2, b3, b4, rfl⟩ := fetched_instr s i e
    rw [e, decodeBytes, decodeBytesWith_of_at_none hat]

/-- The invalid row is fetched from an invalid opcode byte alone (30_encoding.md R63). -/
theorem opcodeByte_of_fetched_invalid {s : State} {low : Nibble} (h : fetchInstr s = .instr (.invalid low)) :
    inRange s.pc 1 = true ∧ 0xF0 ≤ (opcodeByte s).toNat := by
  obtain ⟨h1, -, b1, b2, b3, b4, hi⟩ := fetched_instr s _ h
  have hmn := mnemonic_decodeBytesWith opMapInForce (opcodeByte s) b1 b2 b3 b4
  rw [← decodeBytes, ← hi] at hmn
  exact ⟨h1, (at_instrIndex_eq_none_iff legal_opMapInForce _).1 hmn.symm⟩

/-- A byte 0xF0 to 0xFF is the high nibble 0xF above its low nibble. -/
theorem joinNibbles_of_invalid {b : Byte} (h : 0xF0 ≤ b.toNat) : joinNibbles 0xF#4 (loNibble b) = b :=
  (eq_tier2_of_at_none legal_opMapInForce ((at_instrIndex_eq_none_iff legal_opMapInForce b).2 h)).symm

theorem exec_invalid (low : Nibble) (s : State) :
    exec (.invalid low) s = .next (s.raise (invalidOpcode (joinNibbles 0xF#4 low))) := rfl

/-- Settles O12: the fetch's own two faults, and between them the invalid row's. -/
theorem fetchFaultsInOrder : Obligations.FetchFaultsInOrder := by
  intro s hr
  refine ⟨fun hout => ?_, fun hin hop => ?_, fun hin _ hleave => ?_⟩
  · exact step_of_raised s _ hr (fetchInstr_of_outside ((outsideMemory_iff _).1 hout))
  · rw [step_of_instr s _ hr (fetchInstr_of_invalid ((not_outsideMemory_iff _).1 hin) hop), exec_invalid,
      joinNibbles_of_invalid hop]
    rfl
  · exact step_of_raised s _ hr
      (fetchInstr_of_leaving ((not_outsideMemory_iff _).1 hin) ((not_insideMemory_iff _ _).1 hleave))

/-! ### A faulting step is precise -/

/-- A step of a Running machine to a Faulted state has raised a fault. -/
theorem eq_raise_of_step {s t : State} {r : FaultRecord} (hr : s.run = .running) (h : step s = .next t)
    (ht : t.run = .faulted r) : ∃ e, t = s.raise e := by
  rcases step_run_cases s t hr h with ⟨-, hh⟩ | ⟨-, he | hh⟩
  · cases ht.symm.trans hh
  · exact he
  · cases ht.symm.trans hh

/-- Settles O13: raising a fault changes run alone, and records the pc kept. -/
theorem faultingStepChangesOnlyRun : Obligations.FaultingStepChangesOnlyRun := by
  intro s t r hr h ht
  obtain ⟨e, rfl⟩ := eq_raise_of_step hr h ht
  rw [raise_run] at ht
  cases ht
  exact ⟨⟨fun _ _ => rfl, rfl, fun _ => rfl, rfl⟩, rfl, rfl⟩

/-! ### Which steps raise what -/

/-- The record that raising a fault leaves shows what was raised. -/
theorem raise_inj {s : State} {e e' : Raised} (h : s.raise e = s.raise e') : e = e' := by
  have hrun := congrArg State.run h
  rw [raise_run, raise_run] at hrun
  cases e
  cases e'
  cases hrun
  rfl

/-- What an instruction's rule raises, from a Running state, and when (60_exceptions.md R134). -/
theorem exec_raise_cases {i : Instr} {s : State} {e : Raised} (hr : s.run = .running)
    (h : exec i s = .next (s.raise e)) :
    (∃ ra rb rc, (i = .ld ra rb rc ∨ i = .st ra rb rc) ∧ inRange (effAddr s rb rc) 4 = false ∧
      e = outOfBoundsAt (effAddr s rb rc)) ∨
    (∃ ra rb rc rd, i = .div ra rb rc rd ∧ s.reg rd = 0 ∧ e = divisionByZero) ∨
    (∃ low, i = .invalid low ∧ e = invalidOpcode (joinNibbles 0xF#4 low)) := by
  generalize ht : s.raise e = t at h
  have hrun : t.run = .faulted ⟨e.kind, s.pc, e.info⟩ := by rw [← ht, raise_run]
  cases exec_effect i s t h with
  | raiseAccess ra rb rc hi hz => exact .inl ⟨ra, rb, rc, hi, hz, raise_inj ht⟩
  | raiseDiv ra rb rc rd hi hz => exact .inr (.inl ⟨ra, rb, rc, rd, hi, hz, raise_inj ht⟩)
  | raiseInvalid low hi => exact .inr (.inr ⟨low, hi, raise_inj ht⟩)
  | halt => cases hrun
  | regs ws =>
    obtain ⟨-, -, -, hkeep, -⟩ := setRegs_facts ws s
    rw [advance_run, hkeep, hr] at hrun
    cases hrun
  | cmp | st | jump | taken | notTaken => cases hr.symm.trans hrun

/-- A step from `s` answers a Faulted state whose record has this kind. -/
def StepFaults (s : State) (kind : FaultKind) : Prop :=
  ∃ t r, step s = .next t ∧ t.run = .faulted r ∧ r.kind = kind

/-- A step faults in its fetch or in the rule of the instruction it fetched. -/
theorem stepFaults_iff {s : State} (kind : FaultKind) (hr : s.run = .running) :
    StepFaults s kind ↔ (∃ e, fetchInstr s = .raised e ∧ e.kind = kind) ∨
      ∃ i e, fetchInstr s = .instr i ∧ exec i s = .next (s.raise e) ∧ e.kind = kind := by
  constructor
  · rintro ⟨t, r, h, ht, hk⟩
    obtain ⟨e, rfl⟩ := eq_raise_of_step hr h ht
    rw [raise_run] at ht
    cases ht
    rcases step_cases s with ⟨hn, -⟩ | ⟨-, e', hf, -⟩ | ⟨-, i, hf, e'⟩
    · exact absurd hr hn
    · have hs := (step_of_raised s e' hr hf).symm.trans h
      rw [raise_inj (Host.Outcome.next.inj hs)] at hf
      exact .inl ⟨e, hf, hk⟩
    · exact .inr ⟨i, e, hf, e'.symm.trans h, hk⟩
  · rintro (⟨e, hf, hk⟩ | ⟨i, e, hf, he, hk⟩)
    · exact ⟨_, _, step_of_raised s e hr hf, raise_run s e, hk⟩
    · exact ⟨_, _, (step_of_instr s i hr hf).trans he, raise_run s e, hk⟩

theorem exec_ld_of_not_inRange {s : State} {ra rb rc : Reg} (h : inRange (effAddr s rb rc) 4 = false) :
    exec (.ld ra rb rc) s = .next (s.raise (outOfBoundsAt (effAddr s rb rc))) := by
  rcases execLd_cases ra rb rc s with ⟨h', -⟩ | ⟨-, e⟩
  · exact absurd h' (by simp [h])
  · exact e

theorem exec_st_of_not_inRange {s : State} {ra rb rc : Reg} (h : inRange (effAddr s rb rc) 4 = false) :
    exec (.st ra rb rc) s = .next (s.raise (outOfBoundsAt (effAddr s rb rc))) := by
  rcases execSt_cases ra rb rc s with ⟨h', -⟩ | ⟨-, e⟩
  · exact absurd h' (by simp [h])
  · exact e

theorem exec_div_of_zero {s : State} {ra rb rc rd : Reg} (h : s.reg rd = 0) :
    exec (.div ra rb rc rd) s = .next (s.raise divisionByZero) := by
  rcases execDiv_cases ra rb rc rd s with ⟨h', -⟩ | ⟨-, e⟩
  · exact absurd h h'
  · exact e

/-- OutOfBoundsAccess: by the fetch, or by LD or ST (60_exceptions.md R134). -/
theorem stepFaults_outOfBoundsAccess_iff {s : State} (hr : s.run = .running) :
    StepFaults s .outOfBoundsAccess ↔
      OutsideMemory s.pc ∨ (¬ OutsideMemory s.pc ∧ ¬ InsideMemory s.pc (instrLength (opcodeByte s))) ∨
      ∃ ra rb rc, (Runs s (.ld ra rb rc) ∨ Runs s (.st ra rb rc)) ∧ ¬ InsideMemory (effAddr s rb rc) 4 := by
  have hfetch := fetchInstr_eq_raised_iff s
  rw [stepFaults_iff _ hr, not_outsideMemory_iff, outsideMemory_iff, not_insideMemory_iff, ← or_assoc, ← hfetch]
  constructor
  · rintro (⟨e, hf, -⟩ | ⟨i, e, hf, he, hk⟩)
    · exact .inl ⟨e, hf⟩
    · rcases exec_raise_cases hr he with ⟨ra, rb, rc, rfl | rfl, hz, -⟩ | ⟨_, _, _, _, -, -, rfl⟩ | ⟨_, -, rfl⟩
      · exact .inr ⟨ra, rb, rc, .inl ⟨hr, hf⟩, (not_insideMemory_iff _ _).2 hz⟩
      · exact .inr ⟨ra, rb, rc, .inr ⟨hr, hf⟩, (not_insideMemory_iff _ _).2 hz⟩
      · cases hk
      · cases hk
  · rintro (⟨e, hf⟩ | ⟨ra, rb, rc, ⟨-, hf⟩ | ⟨-, hf⟩, hz⟩)
    · exact .inl ⟨e, hf, by rw [eq_outOfBoundsAt_of_fetchInstr hf]; rfl⟩
    · exact .inr ⟨_, _, hf, exec_ld_of_not_inRange ((not_insideMemory_iff _ _).1 hz), rfl⟩
    · exact .inr ⟨_, _, hf, exec_st_of_not_inRange ((not_insideMemory_iff _ _).1 hz), rfl⟩

/-- The fetch raises no other kind. -/
theorem kind_of_fetchInstr {s : State} {e : Raised} (h : fetchInstr s = .raised e) : e.kind = .outOfBoundsAccess := by
  rw [eq_outOfBoundsAt_of_fetchInstr h]; rfl

/-- DivisionByZero: by DIV alone (60_exceptions.md R134). -/
theorem stepFaults_divisionByZero_iff {s : State} (hr : s.run = .running) :
    StepFaults s .divisionByZero ↔ ∃ ra rb rc rd, Runs s (.div ra rb rc rd) ∧ s.reg rd = 0 := by
  rw [stepFaults_iff _ hr]
  constructor
  · rintro (⟨e, hf, hk⟩ | ⟨i, e, hf, he, hk⟩)
    · cases (kind_of_fetchInstr hf).symm.trans hk
    · rcases exec_raise_cases hr he with ⟨_, _, _, -, -, rfl⟩ | ⟨ra, rb, rc, rd, rfl, hz, -⟩ | ⟨_, -, rfl⟩
      · cases hk
      · exact ⟨ra, rb, rc, rd, ⟨hr, hf⟩, hz⟩
      · cases hk
  · rintro ⟨ra, rb, rc, rd, ⟨-, hf⟩, hz⟩
    exact .inr ⟨_, _, hf, exec_div_of_zero hz, rfl⟩

/-- InvalidOpcode: by an opcode byte 0xF0 to 0xFF inside memory alone (60_exceptions.md R134). -/
theorem stepFaults_invalidOpcode_iff {s : State} (hr : s.run = .running) :
    StepFaults s .invalidOpcode ↔ ¬ OutsideMemory s.pc ∧ 0xF0 ≤ (opcodeByte s).toNat := by
  rw [stepFaults_iff _ hr, not_outsideMemory_iff]
  constructor
  · rintro (⟨e, hf, hk⟩ | ⟨i, e, hf, he, hk⟩)
    · cases (kind_of_fetchInstr hf).symm.trans hk
    · rcases exec_raise_cases hr he with ⟨_, _, _, -, -, rfl⟩ | ⟨_, _, _, _, -, -, rfl⟩ | ⟨low, rfl, -⟩
      · cases hk
      · cases hk
      · exact opcodeByte_of_fetched_invalid hf
  · rintro ⟨h1, hop⟩
    exact .inr ⟨_, _, fetchInstr_of_invalid h1 hop, exec_invalid _ s, rfl⟩

/-- Settles O14, kind by kind. -/
theorem stepFaultsExactlyWhenListed : Obligations.StepFaultsExactlyWhenListed := by
  intro s kind hr
  cases kind with
  | outOfBoundsAccess => exact stepFaults_outOfBoundsAccess_iff hr
  | divisionByZero => exact stepFaults_divisionByZero_iff hr
  | invalidOpcode => exact stepFaults_invalidOpcode_iff hr

/-- Settles O45: DIV's own equation for a zero divisor. -/
theorem divByZeroFaults : Obligations.DivByZeroFaults := fun _ _ _ _ _ hz => exec_div_of_zero hz

/-- The info value of InvalidOpcode is the opcode byte (60_exceptions.md R135). -/
theorem toNat_info_invalidOpcode (low : Nibble) :
    (invalidOpcode (joinNibbles 0xF#4 low)).info.toNat = 0xF0 + low.toNat := by
  revert low; decide

/-- Settles O53: the invalid row's own equation, and the info value of its byte. -/
theorem invalidRowRaisesInvalidOpcode : Obligations.InvalidRowRaisesInvalidOpcode := by
  intro s low
  exact ⟨_, _, exec_invalid low s, raise_run _ _, rfl, rfl, toNat_info_invalidOpcode low, fun _ _ => rfl, fun _ => rfl,
    rfl, rfl⟩

/-- The info value of OutOfBoundsAccess for an access outside memory is its lowest outside address (60_exceptions.md
R135). -/
theorem lowestOutside_info (a : Word) : LowestOutside a (outOfBoundsAt a).info :=
  ⟨fun h => by rw [outOfBoundsAt_of_outside ((outsideMemory_iff a).1 h)],
    fun h => by rw [outOfBoundsAt_of_inside ((not_outsideMemory_iff a).1 h)]⟩

/-- Settles O35: LD and ST raise the same fault. -/
theorem ldStOutsideMemoryFault : Obligations.LdStOutsideMemoryFault := by
  intro s ra rb rc h
  have hz := (not_insideMemory_iff _ _).1 h
  exact ⟨_, lowestOutside_info _, exec_ld_of_not_inRange hz, exec_st_of_not_inRange hz⟩

end Sys2Proof.Proofs.Faults

/-! The invariant of the machine (10_state.md R24, R27, R29, 41_compare_flags.md R82): it holds after reset, and every step
keeps it. -/

namespace Sys2Proof.Proofs.Invariant

open Sys2Proof Sys2Proof.Machine Sys2Proof.Proofs.RunAndFlags Sys2Proof.Proofs.Faults

/-! ### Reset -/

theorem inv_reset : Inv State.reset := ⟨rfl, rfl, rfl, by decide, trivial⟩

/-- An image that the host's reset accepts fits in memory (70_reset_and_hazards.md R152). -/
theorem length_le_of_hostReset {image : List Byte} {s t : State} (h : hostReset image s = some t) :
    image.length ≤ Config.memSize := by
  by_contra hn
  rw [hostReset, if_neg hn] at h
  cases h

/-- Settles O19: an accepted image is written inside memory. -/
theorem resetMeetsTheInvariant : Obligations.ResetMeetsTheInvariant := by
  refine ⟨inv_reset, fun image s t h => ?_⟩
  have hlen := length_le_of_hostReset h
  rw [eq_of_hostReset image s t h]
  exact { inv_reset with mem := wf_setBytes image [] 0 rfl (by omega) }

/-! ### Each change of state -/

/-- Raising a fault whose info value fits its kind keeps the invariant. -/
theorem inv_raise {s : State} (hs : Inv s) (e : Raised) (he : InfoFits ⟨e.kind, s.pc, e.info⟩) : Inv (s.raise e) :=
  { hs with record := ⟨rfl, he⟩ }

/-- A change that leaves the machine Running keeps the invariant when it keeps F and a canonical memory. -/
theorem inv_of_running {s t : State} (hs : Inv s) (hr : t.run = .running) (hf : t.flags = s.flags)
    (hm : t.mem.wf = true) : Inv t where
  mem := hm
  carry := hf ▸ hs.carry
  overflow := hf ▸ hs.overflow
  signImpliesNonzero := hf ▸ hs.signImpliesNonzero
  record := by simp [RecordFits, hr]

/-- A negative difference is not zero, so a comparison never leaves S set with Z clear (41_compare_flags.md R82). -/
theorem compareFlags_sign_imp_nonzero (f : Flags) (a b : Word) (h : (compareFlags f a b).sign = true) :
    (compareFlags f a b).nonzero = true := by
  have hmsb : (a - b).msb = true := h
  refine decide_eq_true fun hz => ?_
  rw [hz] at hmsb
  cases hmsb

theorem inv_compare {s : State} (hs : Inv s) (a b : Word) (n : Nat) (hr : s.run = .running) :
    Inv ((s.setFlags (compareFlags s.flags a b)).advance n) where
  mem := hs.mem
  carry := hs.carry
  overflow := hs.overflow
  signImpliesNonzero := compareFlags_sign_imp_nonzero s.flags a b
  record := by simp [RecordFits, hr]

theorem infoFits_outOfBoundsAt (a pc : Word) : InfoFits ⟨(outOfBoundsAt a).kind, pc, (outOfBoundsAt a).info⟩ :=
  (outsideMemory_iff _).2 (outOfBoundsAt_outside a)

theorem infoFits_invalidOpcode (low : Nibble) (pc : Word) :
    InfoFits ⟨(invalidOpcode (joinNibbles 0xF#4 low)).kind, pc, (invalidOpcode (joinNibbles 0xF#4 low)).info⟩ := by
  have h := toNat_info_invalidOpcode low
  have hlt := low.isLt
  exact ⟨by simp only [h]; omega, by simp only [h]; omega⟩

/-! ### Every step -/

/-- Every instruction's rule keeps the invariant of a Running machine. -/
theorem inv_exec {i : Instr} {s t : State} (hs : Inv s) (hr : s.run = .running) (h : exec i s = .next t) : Inv t := by
  cases exec_effect i s t h with
  | raiseAccess => exact inv_raise hs _ (infoFits_outOfBoundsAt _ _)
  | raiseDiv => exact inv_raise hs _ rfl
  | raiseInvalid low => exact inv_raise hs _ (infoFits_invalidOpcode low _)
  | halt => exact { hs with record := trivial }
  | regs ws =>
    obtain ⟨-, hflags, hmem, hrun, -⟩ := setRegs_facts ws s
    exact inv_of_running hs (hrun.trans hr) hflags (by rw [advance_mem, hmem]; exact hs.mem)
  | cmp => exact inv_compare hs _ _ _ hr
  | st ra rb rc _ hz =>
    have hin := (inRange_iff _ 4 (by omega)).1 hz
    exact inv_of_running hs hr rfl (wf_setBytes _ _ _ hs.mem hin)
  | jump | taken | notTaken => exact inv_of_running hs hr rfl hs.mem

/-- Settles O20: a terminal state stays, a fault of the fetch has a fitting record, and every rule keeps the invariant. -/
theorem stepKeepsTheInvariant : Obligations.StepKeepsTheInvariant := by
  intro s t hs h
  rcases step_cases s with ⟨-, e⟩ | ⟨-, r, hf, e⟩ | ⟨hr, i, -, e⟩
  · cases e.symm.trans h
    exact hs
  · cases e.symm.trans h
    rw [eq_outOfBoundsAt_of_fetchInstr hf]
    exact inv_raise hs _ (infoFits_outOfBoundsAt _ _)
  · exact inv_exec hs hr (e.symm.trans h)

end Sys2Proof.Proofs.Invariant

/-! What every instruction leaves unchanged, and where pc goes (10_state.md R16, R19, R20, R29). -/

namespace Sys2Proof.Proofs.WholeMachine

open Sys2Proof Sys2Proof.Machine

/-- Settles O22: of the effects an instruction can have, ST's alone replaces memory. -/
theorem onlyStChangesMemory : Obligations.OnlyStChangesMemory := by
  intro i s t a h hne
  cases exec_effect i s t h with
  | st ra rb rc hi => exact ⟨ra, rb, rc, hi⟩
  | regs ws =>
    obtain ⟨-, -, hmem, -⟩ := setRegs_facts ws s
    exact absurd (by rw [advance_mem, hmem]) hne
  | raiseAccess | raiseDiv | raiseInvalid | halt | cmp | jump | taken | notTaken => exact absurd rfl hne

/-- Settles O23: of the effects an instruction can have, one alone writes registers, and those are its destinations. -/
theorem onlyDestinationsChange : Obligations.OnlyDestinationsChange := by
  intro i s t q h hne
  cases exec_effect i s t h with
  | regs ws hd =>
    obtain ⟨-, -, -, -, hkeep⟩ := setRegs_facts ws s
    by_contra hq
    exact hne (hkeep q (hd ▸ hq))
  | raiseAccess | raiseDiv | raiseInvalid | halt | cmp | st | jump | taken | notTaken => exact absurd rfl hne

/-- The fetched instruction ends inside memory or at its top (46_dispatch_loop_halt.md R120). -/
theorem pc_add_length_le {s : State} {i : Instr} (h : fetchInstr s = .instr i) :
    s.pc.toNat + (encode i).length ≤ Config.memSize := by
  obtain ⟨-, hin, b1, b2, b3, b4, rfl⟩ := fetched_instr s i h
  have hle := instrLength_bounds (opcodeByte s)
  rw [encode_decodeBytes_length]
  exact (inRange_iff _ _ (by omega)).1 hin

/-- An advance that stays inside memory or ends at its top does not wrap (10_state.md R20). -/
theorem toNat_advance_pc {s : State} {n : Nat} (h : s.pc.toNat + n ≤ Config.memSize) :
    (s.advance n).pc.toNat = s.pc.toNat + n ∧ (s.advance n).pc.toNat ≤ Config.memSize := by
  have hm : Config.memSize = 65536 := rfl
  have heq : (s.advance n).pc.toNat = s.pc.toNat + n := by
    rw [advance_pc, BitVec.toNat_add, BitVec.toNat_ofNat]
    omega
  exact ⟨heq, heq ▸ h⟩

/-- Settles O24: an instruction that is no transfer and no HLT and raises nothing falls through. -/
theorem pcAdvancesByLengthWithoutWrap : Obligations.PcAdvancesByLengthWithoutWrap := by
  intro s t i ⟨hr, hf⟩ hstep ht hjmp hjmpr hcond hcall hcallr hret
  have hle := pc_add_length_le hf
  cases exec_effect i s t ((step_of_instr s i hr hf).symm.trans hstep) with
  | regs ws =>
    obtain ⟨hpc, -⟩ := setRegs_facts ws s
    rw [← hpc] at hle ⊢
    exact toNat_advance_pc hle
  | cmp => exact toNat_advance_pc (s := s) hle
  | st => exact toNat_advance_pc (s := s) hle
  | jump target hi =>
    rcases hi with ⟨imm, e⟩ | ⟨ra, e⟩ | ⟨imm, e⟩ | ⟨ra, e⟩ | e
    · exact absurd e (hjmp imm)
    · exact absurd e (hjmpr ra)
    · exact absurd e (hcall imm)
    · exact absurd e (hcallr ra)
    · exact absurd e hret
  | taken k imm hi => exact absurd hi (hcond k imm)
  | notTaken k imm hi => exact absurd hi (hcond k imm)
  | raiseAccess | raiseDiv | raiseInvalid | halt => cases ht

end Sys2Proof.Proofs.WholeMachine

/-! The machine with its parameters as arguments (00_scope.md R7): where each parameter acts, and that under low5 every state
has a next state. -/

namespace Sys2Proof.Proofs.Parameters

open Sys2Proof Sys2Proof.Machine

/-- The rules of the machine are the parametric ones at the values in force. -/
theorem execWith_paramsInForce : execWith paramsInForce = exec := by
  funext i s
  cases i <;> rfl

theorem stepWith_paramsInForce : stepWith paramsInForce = step := by
  funext s
  rw [stepWith, execWith_paramsInForce]
  rfl

/-- Under any parameters a conditional jump is the shared operation at the table given (45_control_transfer.md R107). -/
theorem execWith_condInstr (p : Config.Params) (k : Config.Cond) (imm : Word) (s : State) :
    execWith p (condInstr k imm) s = condJump p.cond k imm s := by
  cases k <;> rfl

/-- COND acts on the conditional jumps alone (00_scope.md R7). -/
theorem execWith_congr_shamt (p q : Config.Params) (i : Instr) (s : State) (h : p.shamt = q.shamt)
    (hi : ∀ k imm, i ≠ condInstr k imm) : execWith p i s = execWith q i s := by
  cases i with
  | je imm => exact absurd rfl (hi .je imm)
  | jne imm => exact absurd rfl (hi .jne imm)
  | jg imm => exact absurd rfl (hi .jg imm)
  | jge imm => exact absurd rfl (hi .jge imm)
  | jl imm => exact absurd rfl (hi .jl imm)
  | jle imm => exact absurd rfl (hi .jle imm)
  | shl | shr | sar => simp only [execWith, h]
  | _ => rfl

/-- SHAMT_MODE acts on the three shifts alone (00_scope.md R7). -/
theorem execWith_congr_cond (p q : Config.Params) (i : Instr) (s : State) (h : p.cond = q.cond)
    (hi : ∀ ra rb rc, i ≠ .shl ra rb rc ∧ i ≠ .shr ra rb rc ∧ i ≠ .sar ra rb rc) :
    execWith p i s = execWith q i s := by
  cases i with
  | shl ra rb rc => exact absurd rfl (hi ra rb rc).1
  | shr ra rb rc => exact absurd rfl (hi ra rb rc).2.1
  | sar ra rb rc => exact absurd rfl (hi ra rb rc).2.2
  | je | jne | jg | jge | jl | jle => simp only [execWith, h]
  | _ => rfl

/-- Settles O9: the rules agree at the values in force, and with them the step and the run. -/
theorem parametersActWhereNamed : Obligations.ParametersActWhereNamed := by
  refine ⟨fun s => by rw [stepWith_paramsInForce], fun n s => ?_, fun i s => by rw [execWith_paramsInForce],
    execWith_condInstr, execWith_congr_shamt, execWith_congr_cond⟩
  rw [hostRunWith, stepWith_paramsInForce]
  rfl

/-! ### Every state has a next state -/

/-- A conditional jump completes under every table. -/
theorem condJump_completes (table : Config.CondTable) (k : Config.Cond) (imm : Word) (s : State) :
    ∃ t, condJump table k imm s = .next t := by
  rcases condJump_cases table k imm s with ⟨-, e⟩ | ⟨-, e⟩ <;> exact ⟨_, e⟩

/-- Under low5 every instruction completes (70_reset_and_hazards.md R161). -/
theorem execWith_completes (p : Config.Params) (hp : p.shamt = .low5) (i : Instr) (s : State) :
    ∃ t, execWith p i s = .next t := by
  cases i with
  | je | jne | jg | jge | jl | jle => exact condJump_completes p.cond _ _ s
  | shl | shr | sar => simp only [execWith, hp]; exact ⟨_, shiftOp_low5 _ _ _ _ s⟩
  | div ra rb rc rd =>
    rcases execDiv_cases ra rb rc rd s with ⟨-, e⟩ | ⟨-, e⟩ <;> exact ⟨_, e⟩
  | st ra rb rc =>
    rcases execSt_cases ra rb rc s with ⟨-, e⟩ | ⟨-, e⟩ <;> exact ⟨_, e⟩
  | ld ra rb rc =>
    rcases execLd_cases ra rb rc s with ⟨-, e⟩ | ⟨-, e⟩ <;> exact ⟨_, e⟩
  | _ => exact ⟨_, rfl⟩

theorem stepWith_completes (p : Config.Params) (s : State) (hp : p.shamt = .low5) : ∃ t, stepWith p s = .next t := by
  rcases stepBy_cases p.opMap (execWith p) s with ⟨-, e⟩ | ⟨-, r, -, e⟩ | ⟨-, i, -, e⟩
  · exact ⟨_, e⟩
  · exact ⟨_, e⟩
  · obtain ⟨t, ht⟩ := execWith_completes p hp i s
    exact ⟨t, e.trans ht⟩

/-- Settles O10: the machine is the parametric one at low5. -/
theorem stepAlwaysHasANextState : Obligations.StepAlwaysHasANextState :=
  ⟨fun s => stepWith_paramsInForce ▸ stepWith_completes paramsInForce s rfl, stepWith_completes⟩

end Sys2Proof.Proofs.Parameters

/-! The fetch from given bytes (30_encoding.md R69, 20_memory.md R48, R51): it depends on the bytes at pc alone, and sees
what was stored there. -/

namespace Sys2Proof.Proofs.FetchBytes

open Sys2Proof Sys2Proof.Machine Sys2Proof.Proofs.MoveImmediate

/-- Runs of memory that read the same byte by byte are the same. -/
theorem bytes_congr {m m' : Memory} {a n : Nat} (h : ∀ k < n, m.get (a + k) = m'.get (a + k)) :
    m.bytes a n = m'.bytes a n := by
  have hb := bytes_eq_of_get m a (m'.bytes a n) fun k hk => by
    rw [bytes_length] at hk
    rw [bytes_getD m' a n k hk, h k hk]
  rwa [bytes_length] at hb

/-- Settles O16: the fetch reads at most five bytes from pc on. -/
theorem fetchDependsOnlyOnBytesAtPc : Obligations.FetchDependsOnlyOnBytesAtPc := by
  intro s t hpc hmem
  have hop : s.mem.get s.pc.toNat = t.mem.get s.pc.toNat := hmem 0 (by omega)
  have hbytes : s.mem.bytes s.pc.toNat (instrLengthWith opMapInForce (t.mem.get s.pc.toNat)) =
      t.mem.bytes s.pc.toNat (instrLengthWith opMapInForce (t.mem.get s.pc.toNat)) :=
    bytes_congr fun k hk => hmem k (by have := instrLengthWith_bounds opMapInForce (t.mem.get s.pc.toNat); omega)
  have hfetch : fetchBytesWith opMapInForce s = fetchBytesWith opMapInForce t := by
    simp only [fetchBytesWith, memReadBytes, ← hpc, hop, hbytes]
  rw [fetchInstr, fetchInstr, fetchInstrWith, fetchInstrWith, hfetch]

/-- Under any OPMAP the fetch gives the instruction that a run of bytes inside memory from pc on decodes to
(46_dispatch_loop_halt.md R120, R121). -/
theorem fetchInstrWith_of_decodeWith_bytes (m : Config.OpMap) (s : State) (n : Nat) (i : Instr) (rest : List Byte)
    (hin : inRange s.pc n = true) (hd : decodeWith m (s.mem.bytes s.pc.toNat n) = .ok (i, rest)) :
    fetchInstrWith m s = .instr i := by
  cases n with
  | zero => cases hd
  | succ n =>
    obtain ⟨b0, tail, hcons, hlen, -, -⟩ := (decodeWith_ok_iff _ _ _ _).1 hd
    obtain ⟨rfl, -⟩ := List.cons.inj hcons
    rw [bytes_length] at hlen
    have htake := take_bytes s.mem s.pc.toNat _ _ hlen
    have hown := htake ▸ decodeWith_take m _ _ i rest hd
    rcases fetchInstrWith_cases m s with ⟨hout, -⟩ | ⟨-, hout, -⟩ | ⟨-, -, j, hj, hf⟩
    · cases hout.symm.trans (inRange_of_le hin (by omega))
    · cases hout.symm.trans (inRange_of_le hin hlen)
    · cases hj.symm.trans hown
      exact hf

/-- A step of a Running machine runs the instruction that bytes inside memory at pc decode to, whatever the OPMAP and the
rules of the instructions. -/
theorem stepBy_of_decodeWith_bytes (m : Config.OpMap) (ex : Instr → State → Result) (s : State) (n : Nat) (i : Instr)
    (rest : List Byte) (hr : s.run = .running) (hle : s.pc.toNat + n ≤ Config.memSize)
    (hd : decodeWith m (s.mem.bytes s.pc.toNat n) = .ok (i, rest)) : stepBy m ex s = ex i s := by
  have hin : inRange s.pc n = true := (inRange_iff s.pc n (le_of_add_le_right hle)).2 hle
  exact stepBy_of_instr m ex s i hr (fetchInstrWith_of_decodeWith_bytes m s n i rest hin hd)

/-- Settles O8: for the step of the machine and for the parametric one. -/
theorem stepRunsTheDecodedInstruction : Obligations.StepRunsTheDecodedInstruction :=
  ⟨stepBy_of_decodeWith_bytes opMapInForce exec, fun p => stepBy_of_decodeWith_bytes p.opMap (execWith p)⟩

/-- A Running machine runs the instruction that bytes just written at pc decode to. -/
theorem step_of_setBytes {s : State} {m : Memory} {bs : List Byte} {i : Instr} {rest : List Byte}
    (hr : s.run = .running) (hm : m.wf = true) (hmem : s.mem = m.setBytes s.pc.toNat bs) (hlen : bs.length ≤ 65536)
    (hin : inRange s.pc bs.length = true) (hd : decode bs = .ok (i, rest)) : step s = exec i s := by
  have hle := (inRange_iff _ _ hlen).1 hin
  refine step_of_instr s i hr (fetchInstr_of_decode_bytes s bs.length i rest hin ?_)
  rw [hmem, bytes_setBytes_self bs m _ hm hle]
  exact hd

/-- Settles O17: the store leaves pc at the bytes that it wrote. -/
theorem storeIntoNextInstructionIsFetched : Obligations.StoreIntoNextInstructionIsFetched := by
  intro s ra rb rc i rest hm hr hin hea hd
  rw [insideMemory_iff] at hin
  rcases execSt_cases ra rb rc s with ⟨-, e⟩ | ⟨hout, -⟩
  · refine ⟨_, e, step_of_setBytes (m := s.mem) (bs := leBytes (s.reg ra)) hr hm ?_ (by simp) ?_ hd⟩
    · rw [hea]; rfl
    · rw [hea] at hin; exact hin
  · exact absurd hin (by simp [hout])

theorem tableBytes_length (nbits w : Nat) : (tableBytes nbits w).length = 5 := by simp [tableBytes]

/-- The decoder's answer behind a table word's instruction. -/
theorem decode_of_decodeTableWord {nbits w : Nat} {i : Instr} (h : decodeTableWord nbits w = some i) :
    ∃ rest, decode (tableBytes nbits w) = .ok (i, rest) := by
  unfold decodeTableWord at h
  split at h
  · rename_i j rest hd
    cases h
    exact ⟨rest, hd⟩
  · cases h

/-- Settles O18: the hook writes the word's bytes where the next step fetches, at pc or at 0. -/
theorem fetchWordRunsNext : Obligations.FetchWordRunsNext := by
  intro s nbits w i hm h
  obtain ⟨rest, hd⟩ := decode_of_decodeTableWord h
  have hlen := tableBytes_length nbits w
  rw [State.withFetchWord, placeAtFetch]
  split
  case isTrue hin => exact step_of_setBytes (m := s.mem) rfl hm rfl (by omega) (hlen ▸ hin) hd
  case isFalse =>
    have hzero : inRange 0 5 = true := by decide
    exact step_of_setBytes (m := s.mem) rfl hm rfl (by omega) (hlen ▸ hzero) hd

end Sys2Proof.Proofs.FetchBytes

/-! Moves, one-operand arithmetic and CMP (40_move_unary.md, 41_compare_flags.md). -/

namespace Sys2Proof.Proofs.MoveCompare

open Sys2Proof Sys2Proof.Machine Sys2Proof.Proofs.MoveImmediate Sys2Proof.Proofs.RunAndFlags

/-! ### Moves -/

/-- Moving pc alone leaves all else as it was. -/
theorem onlyRegs_advance (s : State) (n : Nat) : OnlyRegs s (s.advance n) [] := ⟨fun _ _ => rfl, rfl, fun _ => rfl, rfl⟩

/-- Settles O25: NOP is the advance of pc by 1. -/
theorem nopOnlyAdvancesPc : Obligations.NopOnlyAdvancesPc := fun s => ⟨_, rfl, onlyRegs_advance s 1, rfl⟩

theorem exec_mov (ra rb : Reg) (s : State) :
    exec (.mov ra rb) s = .next ((s.setReg ra (s.reg rb)).advance 2) := rfl

/-- Settles O26: MOV is one register write and an advance. -/
theorem movCopiesARegister : Obligations.MovCopiesARegister := fun s ra rb =>
  ⟨_, exec_mov ra rb s, onlyRegs_setReg_advance s ra _ 2, by simp, rfl⟩

/-! ### NOT and NEG -/

theorem exec_not (ra rb : Reg) (s : State) : exec (.not ra rb) s = .next ((s.setReg ra (~~~s.reg rb)).advance 2) := by
  rw [← BitVec.xor_allOnes]; rfl

/-- Inverting every bit of a word negates it and subtracts one (40_move_unary.md R78). -/
theorem toInt_not_word (v : Word) : (~~~v).toInt = -v.toInt - 1 := by
  have hv := v.isLt
  rw [BitVec.toInt_eq_toNat_cond, BitVec.toInt_eq_toNat_cond, BitVec.toNat_not]
  split <;> split <;> omega

/-- Settles O28: NOT writes the complement of its source. -/
theorem notInvertsEveryBit : Obligations.NotInvertsEveryBit := fun s ra rb =>
  ⟨_, exec_not ra rb s, onlyRegs_setReg_advance s ra _ 2, rfl, fun k hk => by simp [hk], by
    rw [advance_reg, setReg_reg_self, toInt_not_word]⟩

theorem exec_neg (ra rb : Reg) (s : State) :
    exec (.neg ra rb) s = .next ((s.setReg ra (BitVec.ofInt 32 (0 - (s.reg rb).toInt))).advance 2) := rfl

/-- A word made from an integer in the signed range reads back as it. -/
theorem toInt_ofInt_word {x : Int} (h1 : -(2 ^ 31) ≤ x) (h2 : x < 2 ^ 31) : (BitVec.ofInt 32 x).toInt = x :=
  BitVec.toInt_ofInt_eq_self (by omega) h1 h2

/-- The signed range of a word. -/
theorem toInt_word_bounds (v : Word) : -(2 ^ 31) ≤ v.toInt ∧ v.toInt < 2 ^ 31 := ⟨v.le_toInt, v.toInt_lt⟩

/-- INT_MIN is the one word with the least signed value. -/
theorem toInt_eq_min_iff (v : Word) : v.toInt = -(2 ^ 31) ↔ v = 0x80000000 :=
  BitVec.toInt_inj (y := 0x80000000#32)

/-- Settles O29: the negated value is in the signed range for every word but INT_MIN. -/
theorem negNegates : Obligations.NegNegates := by
  refine fun s ra rb => ⟨_, exec_neg ra rb s, onlyRegs_setReg_advance s ra _ 2, rfl, fun hne => ?_, fun heq => ?_⟩
  · have hmin := mt (toInt_eq_min_iff (s.reg rb)).1 hne
    obtain ⟨hlo, hhi⟩ := toInt_word_bounds (s.reg rb)
    rw [advance_reg, setReg_reg_self, toInt_ofInt_word (by omega) (by omega)]
    omega
  · rw [advance_reg, setReg_reg_self, heq]
    decide

/-! ### CMP -/

/-- S is the sign of the wrapped difference, which is negative or, for a difference that overflows, too large
(41_compare_flags.md R82). -/
theorem compareFlags_sign_iff (f : Flags) (a b : Word) :
    (compareFlags f a b).sign = true ↔
      (-(2 ^ 31) ≤ a.toInt - b.toInt ∧ a.toInt - b.toInt ≤ -1) ∨ 2 ^ 31 - 1 < a.toInt - b.toInt := by
  obtain ⟨ha, ha'⟩ := toInt_word_bounds a
  obtain ⟨hb, hb'⟩ := toInt_word_bounds b
  rw [compareFlags, BitVec.msb_eq_toInt, decide_eq_true_iff, BitVec.toInt_sub, Int.bmod_def]
  split <;> omega

/-- Z says that the operands differ (41_compare_flags.md R80). -/
theorem compareFlags_nonzero_iff (f : Flags) (a b : Word) : (compareFlags f a b).nonzero = true ↔ a ≠ b :=
  decide_eq_true_iff.trans sub_ne_zero

/-- The wrapped difference of two words, from their unsigned values. -/
theorem sub_eq_ofInt (a b : Word) : a - b = BitVec.ofInt 32 ((a.toNat : Int) - b.toNat) := by
  apply BitVec.eq_of_toNat_eq
  have ha := a.isLt
  have hb := b.isLt
  rw [BitVec.toNat_sub, BitVec.toNat_ofInt]
  omega

/-- Settles O30: CMP writes the flags of the comparison, and they are read off the wrapped difference. -/
theorem cmpWritesSignAndNonzero : Obligations.CmpWritesSignAndNonzero := by
  refine fun s ra rb => ⟨_, exec_cmp ra rb s, ?_, fun _ _ => rfl, fun _ => rfl, rfl, rfl⟩
  have hnz : decide (s.reg ra - s.reg rb ≠ 0) = decide (s.reg ra ≠ s.reg rb) := decide_eq_decide.2 sub_ne_zero
  rw [advance_flags, setFlags_flags, compareFlags, hnz, BitVec.msb_eq_getLsbD_last, sub_eq_ofInt]

/-- Settles O31: what each flag of the comparison says about the true difference. -/
theorem cmpFlagsTellTheDifference : Obligations.CmpFlagsTellTheDifference := by
  rintro s ra rb D rfl
  refine ⟨_, exec_cmp ra rb s, ?_, compareFlags_sign_iff _ _ _, Invariant.compareFlags_sign_imp_nonzero _ _ _⟩
  rw [advance_flags, setFlags_flags, compareFlags_nonzero_iff, sub_ne_zero, Ne, Ne, BitVec.toInt_inj]

end Sys2Proof.Proofs.MoveCompare

/-! Conditional jumps, jumps, stubs and HLT (45_control_transfer.md, 46_dispatch_loop_halt.md R124). -/

namespace Sys2Proof.Proofs.Control

open Sys2Proof Sys2Proof.Machine Sys2Proof.Proofs.RunAndFlags Sys2Proof.Proofs.MoveCompare Sys2Proof.Proofs.Encoding

/-! ### Conditional jumps -/

theorem onlyRegs_jump (s : State) (target : Word) : OnlyRegs s (s.jump target) [] :=
  ⟨fun _ _ => rfl, rfl, fun _ => rfl, rfl⟩

theorem condJump_of_taken {table : Config.CondTable} {k : Config.Cond} {s : State}
    (h : condTaken table k s.flags = true) (imm : Word) : condJump table k imm s = .next (s.jump imm) := by
  rw [condJump, if_pos h]

theorem condJump_of_not_taken {table : Config.CondTable} {k : Config.Cond} {s : State}
    (h : ¬ condTaken table k s.flags = true) (imm : Word) : condJump table k imm s = .next (s.advance 5) := by
  rw [condJump, if_neg h]

/-- The opcode byte of conditional jump number k under the OPMAP in force (45_control_transfer.md R107). -/
theorem encode_condInstr (k : Config.Cond) (imm : Word) :
    encode (condInstr k imm) = BitVec.ofNat 8 (8 + condNumber k) :: leBytes imm := by
  cases k <;> exact congrArg (· :: leBytes imm) (by decide)

/-- Settles O48: the shared operation jumps or falls through, by the row of the table. -/
theorem conditionalJumpCommonForm : Obligations.ConditionalJumpCommonForm := by
  refine fun k imm => ⟨encode_condInstr k imm, exec_condInstr k imm, fun table s => ?_⟩
  by_cases h : (table.row k).eval s.flags.sign s.flags.nonzero = true
  · exact ⟨_, condJump_of_taken h imm, onlyRegs_jump s imm, by rw [if_pos h, jump_pc]⟩
  · exact ⟨_, condJump_of_not_taken h imm, onlyRegs_advance s 5, by rw [if_neg h, advance_pc]; rfl⟩

/-- The table in force, column by column, is the formulas of COND_VALUE (45_control_transfer.md R108, first table). -/
theorem condTaken_condInForce_iff (k : Config.Cond) (f : Flags) :
    condTaken condInForce k f = true ↔ condValueFormula k f := by
  rcases f with ⟨_ | _, _ | _, _, _⟩ <;> cases k <;>
    simp [condTaken, condInForce, Config.condValue, Config.CondTable.row, Config.TruthTable.eval, condValueFormula]

/-- COND_LITERAL, column by column (45_control_transfer.md R108, second table). -/
theorem condTaken_condLiteral_iff (k : Config.Cond) (f : Flags) :
    condTaken Config.condLiteral k f = true ↔ condLiteralFormula k f := by
  rcases f with ⟨_ | _, _ | _, _, _⟩ <;> cases k <;>
    simp [condTaken, Config.condLiteral, Config.CondTable.row, Config.TruthTable.eval, condLiteralFormula]

theorem exec_condInstr_of_formula {k : Config.Cond} {s : State} (h : condValueFormula k s.flags) (imm : Word) :
    exec (condInstr k imm) s = .next (s.jump imm) := by
  rw [exec_condInstr, condJump_of_taken ((condTaken_condInForce_iff k s.flags).2 h)]

theorem exec_condInstr_of_not_formula {k : Config.Cond} {s : State} (h : ¬ condValueFormula k s.flags) (imm : Word) :
    exec (condInstr k imm) s = .next (s.advance 5) := by
  rw [exec_condInstr, condJump_of_not_taken (mt (condTaken_condInForce_iff k s.flags).1 h)]

/-- Settles O49: the table in force is the formulas. -/
theorem conditionalJumpsFollowCondValue : Obligations.ConditionalJumpsFollowCondValue := by
  intro k imm s
  by_cases h : condValueFormula k s.flags
  · exact ⟨_, exec_condInstr_of_formula h imm, onlyRegs_jump s imm, fun _ => rfl, fun hn => absurd h hn⟩
  · exact ⟨_, exec_condInstr_of_not_formula h imm, onlyRegs_advance s 5, fun hp => absurd hp h, fun _ => rfl⟩

/-- Settles O50: for JGE and JL the two tables have the same row. -/
theorem condLiteralFollowsItsFormulas : Obligations.CondLiteralFollowsItsFormulas := by
  intro k imm s
  have hiff := condTaken_condLiteral_iff k s.flags
  refine ⟨fun h => condJump_of_taken (hiff.2 h) imm, fun h => condJump_of_not_taken (mt hiff.1 h) imm, ?_⟩
  rintro (rfl | rfl) <;> rfl

/-- After a comparison that does not overflow the formula of each conditional jump is its relation (45_control_transfer.md
R108). -/
theorem condValueFormula_compareFlags_iff (k : Config.Cond) (f : Flags) {a b : Word}
    (hlo : -(2 ^ 31) ≤ a.toInt - b.toInt) (hhi : a.toInt - b.toInt ≤ 2 ^ 31 - 1) :
    condValueFormula k (compareFlags f a b) ↔ condRelation k a b := by
  have hs : (compareFlags f a b).sign = true ↔ a.toInt < b.toInt := by rw [compareFlags_sign_iff]; omega
  have hz : (compareFlags f a b).nonzero = true ↔ a.toInt ≠ b.toInt := by
    rw [compareFlags_nonzero_iff, Ne, Ne, BitVec.toInt_inj]
  have hs' := not_congr hs
  have hz' := not_congr hz
  rw [Bool.not_eq_true] at hs' hz'
  cases k with
  | je => exact hz'.trans (not_ne_iff.trans BitVec.toInt_inj)
  | jne => exact compareFlags_nonzero_iff f a b
  | jg => simp only [condValueFormula, condRelation, hs', hz]; omega
  | jge => simp only [condValueFormula, condRelation, hs']; omega
  | jl => exact hs
  | jle => simp only [condValueFormula, condRelation, hs, hz']; omega

/-- Settles O32: the jump follows its formula, and the formula of the comparison is the relation. -/
theorem jumpAfterCmpFollowsItsRelation : Obligations.JumpAfterCmpFollowsItsRelation := by
  intro s t ra rb k imm h hlo hhi
  cases (exec_cmp ra rb s).symm.trans h
  have hiff := condValueFormula_compareFlags_iff k s.flags hlo hhi
  by_cases hc : condRelation k (s.reg ra) (s.reg rb)
  · exact ⟨_, exec_condInstr_of_formula (hiff.2 hc) imm, fun _ => rfl, fun hn => absurd hc hn⟩
  · exact ⟨_, exec_condInstr_of_not_formula (mt hiff.1 hc) imm, fun hp => absurd hp hc, fun _ => rfl⟩

/-! ### Jumps and stubs -/

/-- A Running machine whose pc is outside memory faults there (46_dispatch_loop_halt.md R120). -/
theorem step_of_outside {s : State} (hr : s.run = .running) (h : OutsideMemory s.pc) :
    step s = .next (s.raise ⟨.outOfBoundsAccess, s.pc⟩) :=
  step_of_raised s _ hr (Faults.fetchInstr_of_outside ((outsideMemory_iff _).1 h))

/-- An instruction that only moves pc completes with any target; a target outside memory is the next fetch's fault
(45_control_transfer.md R104). -/
theorem jump_completes {i : Instr} {s : State} {target : Word} (h : exec i s = .next (s.jump target)) :
    ∃ t, exec i s = .next t ∧ OnlyRegs s t [] ∧ t.pc = target ∧
      (s.run = .running → OutsideMemory target → step t = .next (t.raise ⟨.outOfBoundsAccess, target⟩)) :=
  ⟨_, h, onlyRegs_jump s target, rfl, fun hr hout => step_of_outside (s := s.jump target) hr hout⟩

/-- Settles O47: JMP and JMPR only move pc. -/
theorem jumpsCompleteWithAnyTarget : Obligations.JumpsCompleteWithAnyTarget :=
  fun _ _ _ => ⟨jump_completes rfl, jump_completes rfl⟩

/-- A host run stays in a state that its step answers itself. -/
theorem runBy_of_step_self {stepFn : State → Result} {s : State} (h : stepFn s = .next s) (n : Nat) :
    runBy stepFn n s = .next s := by
  induction n with
  | zero => rfl
  | succ n ih => cases hr : s.run <;> simp [runBy, hr, h, ih]

/-- Settles O51: the step of a fetched stub is the state itself, and so is every run. -/
theorem stubsHang : Obligations.StubsHang := by
  refine ⟨fun s _ _ => ⟨stub_next s, stub_next s, stub_next s⟩, fun s imm ra n h => runBy_of_step_self ?_ n⟩
  rcases h with ⟨hr, hf⟩ | ⟨hr, hf⟩ | ⟨hr, hf⟩ <;> exact (step_of_instr s _ hr hf).trans (stub_next s)

/-! ### Fetching by the opcode byte alone -/

/-- An instruction whose bytes lie inside memory is fetched, and it stands in the row that its opcode byte names. -/
theorem fetchInstrWith_of_inside (m : Config.OpMap) (s : State)
    (hin : inRange s.pc (instrLengthWith m (opcodeByte s)) = true) :
    ∃ i, i.mnemonic = m[instrIndex (opcodeByte s)]? ∧ fetchInstrWith m s = .instr i := by
  obtain ⟨hpos, -⟩ := instrLengthWith_bounds m (opcodeByte s)
  rcases fetchInstrWith_cases m s with ⟨hout, -⟩ | ⟨-, hout, -⟩ | ⟨-, -, i, hd, hf⟩
  · cases hout.symm.trans (MoveImmediate.inRange_of_le hin hpos)
  · cases hout.symm.trans hin
  · obtain ⟨b0, tail, hcons, -, rfl, -⟩ := (decodeWith_ok_iff _ _ _ _).1 hd
    refine ⟨_, ?_, hf⟩
    obtain ⟨k, hk⟩ : ∃ k, instrLengthWith m (opcodeByte s) = k + 1 := ⟨_, (Nat.sub_add_cancel hpos).symm⟩
    rw [← opcodeByte, hk] at hcons
    rw [mnemonic_decodeBytesWith, ← (List.cons.inj hcons).1]
    rfl

/-- Where the opcode byte's row takes one byte, any pc inside memory fetches it. -/
theorem fetchInstrWith_of_oneByte {m : Config.OpMap} {s : State} {mn : Config.Mnemonic} (h1 : inRange s.pc 1 = true)
    (hat : m[instrIndex (opcodeByte s)]? = some mn) (hlen : (shapeOf mn).length = 1) :
    ∃ i, i.mnemonic = some mn ∧ fetchInstrWith m s = .instr i :=
  hat ▸ fetchInstrWith_of_inside m s (by rw [instrLengthWith_of_at hat, hlen, h1])

theorem eq_hlt_of_mnemonic {i : Instr} (h : i.mnemonic = some .hlt) : i = .hlt := by
  cases i with
  | hlt => rfl
  | _ => cases h

theorem eq_nop_of_mnemonic {i : Instr} (h : i.mnemonic = some .nop) : i = .nop := by
  cases i with
  | nop => rfl
  | _ => cases h

/-- Settles O52: the bytes 0xE0 to 0xEF have the index 29. -/
theorem hltHaltsAtAnyAddress : Obligations.HltHaltsAtAnyAddress := by
  refine ⟨fun s => ⟨_, rfl, rfl, fun _ _ => rfl, fun _ => rfl, rfl, rfl⟩, fun s hr hin hop => ?_⟩
  have hidx : instrIndex (opcodeByte s) = 29 := by rw [instrIndex_eq, hop]; rfl
  have hat : opMapInForce[instrIndex (opcodeByte s)]? = some .hlt := by rw [hidx]; rfl
  obtain ⟨i, hmn, hf⟩ := fetchInstrWith_of_oneByte ((Faults.not_outsideMemory_iff _).1 hin) hat rfl
  rw [eq_hlt_of_mnemonic hmn] at hf
  exact step_of_instr s _ hr hf

/-! ### Byte zero -/

/-- Where index 0 is NOP, a Running machine with the byte 0 at pc falls through by one (70_reset_and_hazards.md R158). -/
theorem stepWith_of_zeroByte {p : Config.Params} {s : State} (hr : s.run = .running) (h1 : inRange s.pc 1 = true)
    (hop : opcodeByte s = 0) (hp : p.opMap[0]? = some .nop) : stepWith p s = .next (s.advance 1) := by
  have hat : p.opMap[instrIndex (opcodeByte s)]? = some .nop := by rw [hop]; exact hp
  obtain ⟨i, hmn, hf⟩ := fetchInstrWith_of_oneByte h1 hat rfl
  rw [eq_nop_of_mnemonic hmn] at hf
  exact stepBy_of_instr _ _ s _ hr hf

/-- Settles O55: the byte 0 has the index 0, whatever the OPMAP holds there. -/
theorem zeroByteRunsTheInstructionOfIndexZero : Obligations.ZeroByteRunsTheInstructionOfIndexZero := by
  intro s hr hin hop
  have h1 := (Faults.not_outsideMemory_iff _).1 hin
  refine ⟨Parameters.stepWith_paramsInForce ▸ stepWith_of_zeroByte hr h1 hop rfl, fun p =>
    ⟨stepWith_of_zeroByte hr h1 hop, fun hlen => ?_⟩⟩
  rw [insideMemory_iff, ← hop] at hlen
  obtain ⟨i, hmn, hf⟩ := fetchInstrWith_of_inside p.opMap s hlen
  rw [hop] at hmn
  exact ⟨i, hmn, hf, stepBy_of_instr _ _ s i hr hf⟩

end Sys2Proof.Proofs.Control

/-! LD and ST inside memory (42_load_store.md R84 to R87). -/

namespace Sys2Proof.Proofs.LoadStore

open Sys2Proof Sys2Proof.Machine Sys2Proof.Proofs.MoveImmediate

theorem exec_ld_of_inRange {s : State} {ra rb rc : Reg} (h : inRange (effAddr s rb rc) 4 = true) :
    exec (.ld ra rb rc) s = .next ((s.setReg ra (s.mem.word (effAddr s rb rc).toNat)).advance 2) := by
  rcases execLd_cases ra rb rc s with ⟨-, e⟩ | ⟨h', -⟩
  · exact e
  · cases h'.symm.trans h

theorem exec_st_of_inRange {s : State} {ra rb rc : Reg} (h : inRange (effAddr s rb rc) 4 = true) :
    exec (.st ra rb rc) s =
      .next ((s.setMem (s.mem.setBytes (effAddr s rb rc).toNat (leBytes (s.reg ra)))).advance 2) := by
  rcases execSt_cases ra rb rc s with ⟨-, e⟩ | ⟨h', -⟩
  · exact e
  · cases h'.symm.trans h

/-- The bytes of a word in address order are its bytes from the lowest up (20_memory.md R36). -/
theorem leBytes_getD (v : Word) {k : Nat} (hk : k < 4) : (leBytes v).getD k 0 = v.extractLsb' (8 * k) 8 := by
  interval_cases k <;> rfl

/-- The bytes of a word of memory are the bytes at its addresses (20_memory.md R36, R38). -/
theorem extractLsb'_word (m : Memory) (a : Nat) {k : Nat} (hk : k < 4) :
    (m.word a).extractLsb' (8 * k) 8 = m.get (a + k) := by
  rw [← leBytes_getD _ hk, Memory.word]
  interval_cases k <;> simp [leBytes]

/-- Settles O33: a byte read after the store is a stored one at the four addresses, and the old one elsewhere. -/
theorem stStoresFourBytes : Obligations.StStoresFourBytes := by
  intro s ra rb rc hm hin
  rw [insideMemory_iff] at hin
  have hle : (effAddr s rb rc).toNat + (leBytes (s.reg ra)).length ≤ Config.memSize := (inRange_iff _ 4 (by omega)).1 hin
  have hget := get_setBytes (leBytes (s.reg ra)) s.mem _ hm hle
  refine ⟨rfl, _, exec_st_of_inRange hin, fun k hk => ?_, fun b hb => ?_, wf_setBytes _ _ _ hm hle, fun _ _ => rfl, rfl,
    rfl, rfl⟩
  · rw [advance_mem, setMem_mem, hget, if_pos (by simp [hk]), Nat.add_sub_cancel_left, leBytes_getD _ hk]
  · rw [advance_mem, setMem_mem, hget, if_neg (by rw [leBytes_length]; omega)]

/-- Settles O34: the loaded word is the four bytes of memory. -/
theorem ldLoadsFourBytes : Obligations.LdLoadsFourBytes := by
  intro s ra rb rc hin
  refine ⟨rfl, _, exec_ld_of_inRange ((insideMemory_iff _ _).1 hin), fun k hk => ?_, onlyRegs_setReg_advance s ra _ 2,
    rfl⟩
  rw [advance_reg, setReg_reg_self, extractLsb'_word _ _ hk]

/-- Words of memory whose four bytes read the same are the same. -/
theorem word_congr {m m' : Memory} {a : Nat} (h : ∀ k < 4, m.get (a + k) = m'.get (a + k)) : m.word a = m'.word a := by
  have h0 := h 0 (by omega)
  rw [Nat.add_zero] at h0
  rw [Memory.word, Memory.word, h0, h 1 (by omega), h 2 (by omega), h 3 (by omega)]

/-- Settles O36: the load reads, at the same address, the word that the store wrote. -/
theorem loadReturnsWhatWasStored : Obligations.LoadReturnsWhatWasStored := by
  intro s t u rv rd rb rc hm hin hst hrb hrc hmem
  rw [insideMemory_iff] at hin
  cases (exec_st_of_inRange hin).symm.trans hst
  have hea : effAddr u rb rc = effAddr s rb rc := by rw [effAddr, effAddr, hrb, hrc]
  refine ⟨_, exec_ld_of_inRange (hea ▸ hin), ?_⟩
  rw [advance_reg, setReg_reg_self, hea, word_congr hmem]
  exact word_setBytes_self _ _ _ hm ((inRange_iff _ 4 (by omega)).1 hin)

/-- Settles O37: the sum of base and offset commutes. -/
theorem baseAndOffsetAreSymmetric : Obligations.BaseAndOffsetAreSymmetric := by
  intro s ra rb rc
  have hea : effAddr s rb rc = effAddr s rc rb := BitVec.add_comm _ _
  simp only [exec, execLd, execSt, hea, and_self]

end Sys2Proof.Proofs.LoadStore

/-! The eight three-register ALU instructions (43_alu.md). -/

namespace Sys2Proof.Proofs.Alu

open Sys2Proof Sys2Proof.Machine Sys2Proof.Proofs.MoveImmediate

/-- A tier-2 opcode byte is the selector above the register field (30_encoding.md R54). -/
theorem tier2_eq (op : Nibble) (ra : Reg) : tier2 op ra = op.setWidth 8 <<< 4 ||| ra.setWidth 8 := by
  revert op ra; decide

/-- The rule common to the eight (43_alu.md R88): two bytes under this selector, and one function of the two sources. -/
structure AluForm (c : Reg → Reg → Reg → Instr) (op : Nibble) (f : Word → Word → Word) : Prop where
  encode_eq : ∀ ra rb rc, encode (c ra rb rc) = [tier2 op ra, joinNibbles rb rc]
  exec_eq : ∀ ra rb rc s, exec (c ra rb rc) s = .next ((s.setReg ra (f (s.reg rb) (s.reg rc))).advance 2)

/-- What an instruction of the common form answers: its function of the two sources in ra, and nothing else but pc. -/
theorem AluForm.answers {c : Reg → Reg → Reg → Instr} {op : Nibble} {f : Word → Word → Word} (h : AluForm c op f)
    (ra rb rc : Reg) (s : State) : ∃ t, exec (c ra rb rc) s = .next t ∧ t.reg ra = f (s.reg rb) (s.reg rc) ∧
      OnlyRegs s t [ra] ∧ t.pc = s.pc + 2 :=
  ⟨_, h.exec_eq ra rb rc s, by simp, onlyRegs_setReg_advance s ra _ 2, rfl⟩

/-- The common form as O38 states it, with the opcode byte in numbers. -/
theorem AluForm.common {c : Reg → Reg → Reg → Instr} {op : Nibble} {f : Word → Word → Word} (h : AluForm c op f) :
    ∃ f : Word → Word → Word, ∀ (s : State) (ra rb rc : Reg),
      encode (c ra rb rc) = [op.setWidth 8 <<< 4 ||| ra.setWidth 8, joinNibbles rb rc] ∧
      ∃ t, exec (c ra rb rc) s = .next t ∧ t.reg ra = f (s.reg rb) (s.reg rc) ∧ OnlyRegs s t [ra] ∧ t.pc = s.pc + 2 :=
  ⟨f, fun s ra rb rc => ⟨by rw [h.encode_eq, tier2_eq], h.answers ra rb rc s⟩⟩

/-- The shift amount under low5: the amount register's value modulo 32 (43_alu.md R94). -/
def amount (v : Word) : Nat := (v.extractLsb' 0 5).toNat

theorem amount_eq (v : Word) : amount v = v.toNat % 32 := BitVec.extractLsb'_toNat 0 5 v

/-! Each of the eight, with its selector under the OPMAP in force and its function. -/

theorem aluForm_add : AluForm .add 4 (· + ·) := ⟨fun _ _ _ => rfl, fun _ _ _ _ => rfl⟩
theorem aluForm_sub : AluForm .sub 5 (· - ·) := ⟨fun _ _ _ => rfl, fun _ _ _ _ => rfl⟩
theorem aluForm_and : AluForm .and 6 (· &&& ·) := ⟨fun _ _ _ => rfl, fun _ _ _ _ => rfl⟩
theorem aluForm_or : AluForm .or 7 (· ||| ·) := ⟨fun _ _ _ => rfl, fun _ _ _ _ => rfl⟩
theorem aluForm_xor : AluForm .xor 8 (· ^^^ ·) := ⟨fun _ _ _ => rfl, fun _ _ _ _ => rfl⟩
theorem aluForm_shl : AluForm .shl 9 (fun a b => shlWord a (amount b)) := ⟨fun _ _ _ => rfl, fun _ _ _ _ => rfl⟩
theorem aluForm_shr : AluForm .shr 10 (fun a b => shrWord a (amount b)) := ⟨fun _ _ _ => rfl, fun _ _ _ _ => rfl⟩
theorem aluForm_sar : AluForm .sar 11 (fun a b => sarWord a (amount b)) := ⟨fun _ _ _ => rfl, fun _ _ _ _ => rfl⟩

/-- Settles O38: each of the eight has the common form. -/
theorem aluCommonForm : Obligations.AluCommonForm := by
  unfold Obligations.AluCommonForm aluInstrs
  simp only [List.forall_mem_cons]
  exact ⟨aluForm_add.common, aluForm_sub.common, aluForm_and.common, aluForm_or.common, aluForm_xor.common,
    aluForm_shl.common, aluForm_shr.common, aluForm_sar.common, fun _ h => absurd h List.not_mem_nil⟩

/-- Settles O39: the wrapped sum and difference of words, read unsigned and signed. -/
theorem addSubWrap : Obligations.AddSubWrap := by
  intro s ra rb rc
  obtain ⟨t, hadd, ht, hkeep, hpc⟩ := aluForm_add.answers ra rb rc s
  obtain ⟨u, hsub, hu, hkeep', hpc'⟩ := aluForm_sub.answers ra rb rc s
  refine ⟨⟨t, hadd, hkeep, hpc, ?_, ?_⟩, ⟨u, hsub, hkeep', hpc', ?_, ?_⟩⟩
  · rw [ht, BitVec.toNat_add]
  · rw [ht, BitVec.toInt_add]
  · have hb := (s.reg rb).isLt
    have hc := (s.reg rc).isLt
    rw [hu, BitVec.toNat_sub]
    omega
  · rw [hu, BitVec.toInt_sub]

/-- Settles O40: the three results bit by bit. -/
theorem logicIsBitwise : Obligations.LogicIsBitwise := by
  intro s ra rb rc
  obtain ⟨t, hand, ht, hkeep, hpc⟩ := aluForm_and.answers ra rb rc s
  obtain ⟨u, hor, hu, hkeep', hpc'⟩ := aluForm_or.answers ra rb rc s
  obtain ⟨v, hxor, hv, hkeep'', hpc''⟩ := aluForm_xor.answers ra rb rc s
  refine ⟨⟨t, hand, hkeep, hpc, fun k _ => ?_⟩, ⟨u, hor, hkeep', hpc', fun k _ => ?_⟩,
    ⟨v, hxor, hkeep'', hpc'', fun k _ => ?_⟩⟩
  · rw [ht, BitVec.getLsbD_and]
  · rw [hu, BitVec.getLsbD_or]
  · rw [hv, BitVec.getLsbD_xor]

theorem toNat_shlWord (a : Word) (n : Nat) : (shlWord a n).toNat = a.toNat * 2 ^ n % 2 ^ 32 := by
  rw [shlWord, BitVec.toNat_shiftLeft, Nat.shiftLeft_eq]

theorem toNat_shrWord (a : Word) (n : Nat) : (shrWord a n).toNat = a.toNat / 2 ^ n := by
  rw [shrWord, BitVec.toNat_ushiftRight, Nat.shiftRight_eq_div_pow]

theorem toInt_sarWord (a : Word) (n : Nat) : (sarWord a n).toInt = a.toInt / 2 ^ n := by
  rw [sarWord, BitVec.toInt_sshiftRight, Int.shiftRight_eq_div_pow]
  norm_cast

/-- Settles O41: the three shifts as arithmetic, at the low five bits of the amount register. -/
theorem shiftsMultiplyAndDivideByPowersOfTwo : Obligations.ShiftsMultiplyAndDivideByPowersOfTwo := by
  rintro s ra rb rc n rfl
  obtain ⟨t, hshl, ht, hkeep, hpc⟩ := aluForm_shl.answers ra rb rc s
  obtain ⟨u, hshr, hu, hkeep', hpc'⟩ := aluForm_shr.answers ra rb rc s
  obtain ⟨v, hsar, hv, hkeep'', hpc''⟩ := aluForm_sar.answers ra rb rc s
  refine ⟨⟨t, hshl, hkeep, hpc, ?_⟩, ⟨u, hshr, hkeep', hpc', ?_⟩, ⟨v, hsar, hkeep'', hpc'', ?_⟩⟩
  · rw [ht, toNat_shlWord, amount_eq]
  · rw [hu, toNat_shrWord, amount_eq]
  · rw [hv, toInt_sarWord, amount_eq]

/-- Settles O42: below 32 the low five bits are the whole amount. -/
theorem alternativeShiftModeStopsAbove31 : Obligations.AlternativeShiftModeStopsAbove31 := by
  intro f ra rb rc s
  have hamount := amount_eq (s.reg rc)
  rcases shiftOp_fault_cases f ra rb rc s with ⟨hle, e⟩ | ⟨hgt, e⟩
  · refine ⟨fun _ => ?_, fun h => by omega⟩
    rw [Nat.mod_eq_of_lt (by omega)] at hamount
    rw [e, shiftOp_low5, ← amount, hamount]
  · exact ⟨fun h => by omega, fun _ => e⟩

end Sys2Proof.Proofs.Alu

/-! MUL and DIV (44_muldiv.md). -/

namespace Sys2Proof.Proofs.MulDiv

open Sys2Proof Sys2Proof.Machine Sys2Proof.Proofs.MoveCompare

/-! ### The two destinations -/

/-- Two registers written one after the other, then pc by 3: nothing else changes. -/
theorem onlyRegs_writePair (s : State) (ra rb : Reg) (v w : Word) :
    OnlyRegs s (((s.setReg ra v).setReg rb w).advance 3) [ra, rb] where
  regs q hq := by
    obtain ⟨ha, hb⟩ := not_or.1 (List.mem_pair.not.1 hq)
    rw [advance_reg, setReg_reg_ne _ _ _ _ hb, setReg_reg_ne _ _ _ _ ha]
  flags := rfl
  mem _ := rfl
  run := rfl

/-- The first destination keeps its result where the second is another register. -/
theorem writePair_reg_first (s : State) {ra rb : Reg} (v w : Word) (h : ra ≠ rb) :
    (((s.setReg ra v).setReg rb w).advance 3).reg ra = v := by
  rw [advance_reg, setReg_reg_ne _ _ _ _ h, setReg_reg_self]

theorem writePair_reg_second (s : State) (ra rb : Reg) (v w : Word) :
    (((s.setReg ra v).setReg rb w).advance 3).reg rb = w := setReg_reg_self _ _ _

/-! ### MUL -/

theorem exec_mul (ra rb rc rd : Reg) (s : State) :
    exec (.mul ra rb rc rd) s =
      .next (((s.setReg ra ((product64 (s.reg rc) (s.reg rd)).extractLsb' 32 32)).setReg rb
        ((product64 (s.reg rc) (s.reg rd)).extractLsb' 0 32)).advance 3) := rfl

/-- The signed product of two words fits in 64 bits (44_muldiv.md R100). -/
theorem toInt_product64 (a b : Word) : (product64 a b).toInt = a.toInt * b.toInt := by
  obtain ⟨ha, ha'⟩ := toInt_word_bounds a
  obtain ⟨hb, hb'⟩ := toInt_word_bounds b
  have hbound : |a.toInt * b.toInt| ≤ 2 ^ 31 * 2 ^ 31 := by
    rw [abs_mul]
    exact mul_le_mul (abs_le.2 ⟨ha, ha'.le⟩) (abs_le.2 ⟨hb, hb'.le⟩) (abs_nonneg _) (by norm_num)
  obtain ⟨hlo, hhi⟩ := abs_le.1 hbound
  exact BitVec.toInt_ofInt_eq_self (by omega) (by omega) (by omega)

/-- A 64-bit vector is its signed high half above its unsigned low half. -/
theorem toInt_halves (x : BitVec 64) :
    (x.extractLsb' 32 32).toInt * 2 ^ 32 + ((x.extractLsb' 0 32).toNat : Int) = x.toInt := by
  have hx := x.isLt
  rw [BitVec.toInt_eq_toNat_cond, BitVec.toInt_eq_toNat_cond, BitVec.extractLsb'_toNat, BitVec.extractLsb'_toNat,
    Nat.shiftRight_eq_div_pow, Nat.shiftRight_eq_div_pow]
  split <;> split <;> omega

/-- The low half is the product modulo 2^32 (44_muldiv.md R99, R100). -/
theorem toNat_product64_low (a b : Word) :
    (((product64 a b).extractLsb' 0 32).toNat : Int) = a.toInt * b.toInt % 2 ^ 32 := by
  rw [product64, BitVec.extractLsb'_toNat, BitVec.toNat_ofInt, Nat.shiftRight_zero]
  omega

/-- Settles O43: the two halves make the 64-bit product, which is exact. -/
theorem mulGivesTheExactProduct : Obligations.MulGivesTheExactProduct := by
  refine fun s ra rb rc rd => ⟨_, exec_mul ra rb rc rd s, onlyRegs_writePair s ra rb _ _, rfl, fun hne => ?_⟩
  rw [writePair_reg_first s _ _ hne, writePair_reg_second, toInt_halves, toInt_product64]

/-! ### DIV -/

theorem exec_div_of_ne_zero {s : State} {rd : Reg} (h : s.reg rd ≠ 0) (ra rb rc : Reg) :
    exec (.div ra rb rc rd) s =
      .next (((s.setReg ra (quotient (s.reg rc) (s.reg rd))).setReg rb
        (remainder (s.reg rc) (s.reg rd))).advance 3) := by
  rcases execDiv_cases ra rb rc rd s with ⟨-, e⟩ | ⟨hz, -⟩
  · exact e
  · exact absurd hz h

/-- What truncating division gives over the integers: a remainder smaller than the divisor and not of the opposite sign to
the dividend, and a quotient no larger than the dividend (44_muldiv.md R101). -/
structure Truncates (x y q r : Int) : Prop where
  identity : x = q * y + r
  small : r.natAbs < y.natAbs
  nonneg : 0 ≤ x → 0 ≤ r
  nonpos : x ≤ 0 → r ≤ 0
  quotient_le : q.natAbs ≤ x.natAbs

theorem truncates_tdiv (x : Int) {y : Int} (hy : y ≠ 0) : Truncates x y (x.tdiv y) (x - x.tdiv y * y) := by
  have hr : x - x.tdiv y * y = x.tmod y := by rw [Int.tmod_def, mul_comm]
  have habs := Int.natAbs_tmod x y
  rw [hr]
  exact {
    identity := by omega
    small := habs ▸ Nat.mod_lt _ (Int.natAbs_pos.2 hy)
    nonneg := Int.tmod_nonneg y
    nonpos := fun hx => by
      have := Int.tmod_nonneg y (a := -x) (by omega)
      rw [Int.neg_tmod] at this
      omega
    quotient_le := Int.natAbs_tdiv_le_natAbs x y }

theorem toInt_ne_zero {v : Word} (h : v ≠ 0) : v.toInt ≠ 0 := fun e => h ((BitVec.toInt_inj (y := 0#32)).1 e)

/-- The remainder is smaller than a word, so it is stored as it is (44_muldiv.md R101). -/
theorem toInt_remainder (a : Word) {b : Word} (hb : b ≠ 0) :
    (remainder a b).toInt = a.toInt - a.toInt.tdiv b.toInt * b.toInt := by
  have hlt := (truncates_tdiv a.toInt (toInt_ne_zero hb)).small
  obtain ⟨hlo, hhi⟩ := toInt_word_bounds b
  exact toInt_ofInt_word (by omega) (by omega)

/-- The quotient is stored as it is but for INT_MIN / -1, where alone it is 2^31 (44_muldiv.md R103). -/
theorem toInt_quotient {a b : Word} (hb : b ≠ 0) (hmin : ¬ (a = 0x80000000 ∧ b = 0xFFFFFFFF)) :
    (quotient a b).toInt = a.toInt.tdiv b.toInt := by
  obtain ⟨hid, hsmall, -, hnonpos, hle⟩ := truncates_tdiv a.toInt (toInt_ne_zero hb)
  obtain ⟨hlo, hhi⟩ := toInt_word_bounds a
  have hne : a.toInt.tdiv b.toInt ≠ 2 ^ 31 := by
    intro hq
    rw [hq] at hid hsmall hnonpos hle
    have ha : a.toInt = -(2 ^ 31) := by omega
    have hb' : b.toInt = -1 := by omega
    exact hmin ⟨(toInt_eq_min_iff a).1 ha, (BitVec.toInt_inj (y := 0xFFFFFFFF#32)).1 hb'⟩
  exact toInt_ofInt_word (by omega) (by omega)

/-- Settles O44: both results are stored as they are, but for the quotient of INT_MIN / -1. -/
theorem divTruncatesTowardZero : Obligations.DivTruncatesTowardZero := by
  refine fun s ra rb rc rd hd => ⟨_, exec_div_of_ne_zero hd ra rb rc, onlyRegs_writePair s ra rb _ _, rfl,
    fun hne hmin => ?_, fun hne hc hd' => ?_⟩
  · obtain ⟨hid, hsmall, hnonneg, hnonpos, -⟩ := truncates_tdiv (s.reg rc).toInt (toInt_ne_zero hd)
    rw [writePair_reg_first s _ _ hne, writePair_reg_second, toInt_quotient hd hmin, toInt_remainder _ hd]
    exact ⟨hid, hsmall, hnonneg, hnonpos⟩
  · rw [writePair_reg_first s _ _ hne, writePair_reg_second, hc, hd']
    decide

/-- Settles O46: the second destination is written last. -/
theorem secondDestinationWins : Obligations.SecondDestinationWins := by
  refine fun s ra rc rd => ⟨⟨_, exec_mul ra ra rc rd s, ?_⟩, fun hd => ⟨_, exec_div_of_ne_zero hd ra ra rc, ?_⟩⟩
  · rw [writePair_reg_second, toNat_product64_low]
  · obtain ⟨hid, hsmall, hnonneg, hnonpos, -⟩ := truncates_tdiv (s.reg rc).toInt (toInt_ne_zero hd)
    rw [writePair_reg_second, toInt_remainder _ hd]
    exact ⟨hsmall, hnonneg, hnonpos, _, hid⟩

end Sys2Proof.Proofs.MulDiv

/-! Reset and the host (10_state.md R32, 00_scope.md R10, 70_reset_and_hazards.md R150 to R158). -/

namespace Sys2Proof.Proofs.ResetHost

open Sys2Proof Sys2Proof.Machine Sys2Proof.Proofs.RunAndFlags

/-! ### Reset -/

theorem hostReset_of_length_le {image : List Byte} (h : image.length ≤ Config.memSize) (s : State) :
    hostReset image s = some (State.reset.setMem (Memory.setBytes [] 0 image)) := by
  rw [hostReset, if_pos h]; rfl

theorem hostReset_of_lt_length {image : List Byte} (h : Config.memSize < image.length) (s : State) :
    hostReset image s = none := by
  rw [hostReset, if_neg (by omega)]

@[simp] theorem reset_reg (q : Reg) : State.reset.reg q = 0 := by simp [State.reg, State.reset]

/-- A byte of memory after a reset with an image that fits (70_reset_and_hazards.md R150). -/
theorem get_setBytes_nil {image : List Byte} (h : image.length ≤ Config.memSize) (a : Nat) :
    Memory.get (Memory.setBytes [] 0 image) a = if a < image.length then image.getD a 0 else 0 := by
  rw [get_setBytes image [] 0 rfl (by omega)]
  simp only [Nat.zero_le, true_and, Nat.zero_add, Nat.sub_zero]
  rfl

/-- Settles O54: the reset with an image that fits is the reset state with the image at address 0. -/
theorem resetLeavesTheStatedState : Obligations.ResetLeavesTheStatedState := by
  refine ⟨fun image s hlen => ⟨_, hostReset_of_length_le hlen s, reset_reg, rfl, fun a ha => ?_, fun a ha => ?_, rfl,
    rfl⟩, fun image s h => hostReset_of_lt_length h s, fun s => hostReset_of_length_le (Nat.zero_le _) s⟩
  · rw [setMem_mem, get_setBytes_nil hlen, if_pos ha]
  · rw [setMem_mem, get_setBytes_nil hlen, if_neg (by omega)]

/-! ### The run from the empty image -/

/-- A run whose first part leads to `t` goes on from `t`. -/
theorem runBy_add {stepFn : State → Result} {m : Nat} {s t : State} (h : runBy stepFn m s = .next t) (n : Nat) :
    runBy stepFn (m + n) s = runBy stepFn n t := by
  induction m generalizing s with
  | zero => cases h; rw [Nat.zero_add]
  | succ m ih =>
    by_cases hr : s.run = .running
    · rw [Nat.succ_add]
      simp only [runBy, hr] at h ⊢
      cases hs : stepFn s with
      | next u => simp only [hs] at h ⊢; exact ih h
      | fault => simp [hs] at h
      | refused => simp [hs] at h
    · have hst : s = t := Host.Outcome.next.inj ((runBy_of_not_running stepFn _ s hr).symm.trans h)
      rw [← hst, runBy_of_not_running stepFn _ s hr, runBy_of_not_running stepFn _ s hr]

/-- One step of a host run from a Running state. -/
theorem runBy_one {stepFn : State → Result} {s t : State} (hr : s.run = .running) (h : stepFn s = .next t) :
    runBy stepFn 1 s = .next t := by simp [runBy, hr, h]

/-- The state after reset with the empty image, with pc moved to an address. -/
def resetAt (n : Nat) : State := { State.reset with pc := BitVec.ofNat 32 n }

theorem toNat_resetAt_pc {n : Nat} (h : n ≤ Config.memSize) : (resetAt n).pc.toNat = n := by
  have hm : Config.memSize = 65536 := rfl
  rw [resetAt, BitVec.toNat_ofNat]
  omega

/-- Where index 0 is NOP, a step in the zeros of the empty image falls through by one. -/
theorem stepWith_resetAt {p : Config.Params} (hp : p.opMap[0]? = some .nop) {n : Nat} (h : n < Config.memSize) :
    stepWith p (resetAt n) = .next (resetAt (n + 1)) := by
  have hin : inRange (resetAt n).pc 1 = true :=
    (inRange_iff _ 1 (by omega)).2 (by rw [toNat_resetAt_pc h.le]; omega)
  have hadv : (resetAt n).advance 1 = resetAt (n + 1) := by rw [resetAt, resetAt, BitVec.ofNat_add]; rfl
  rw [Control.stepWith_of_zeroByte rfl hin rfl hp, hadv]

theorem hostRunWith_resetAt {p : Config.Params} (hp : p.opMap[0]? = some .nop) {n : Nat} (h : n ≤ Config.memSize) :
    hostRunWith p n State.reset = .next (resetAt n) := by
  induction n with
  | zero => rfl
  | succ n ih => exact (runBy_add (ih (by omega)) 1).trans (runBy_one rfl (stepWith_resetAt hp h))

/-- At the top of memory the fetch faults (70_reset_and_hazards.md R158). -/
theorem stepWith_top (p : Config.Params) :
    stepWith p (resetAt 65536) = .next ((resetAt 65536).raise ⟨.outOfBoundsAccess, 0x10000⟩) :=
  stepBy_of_raised _ _ _ _ rfl (Faults.fetchInstrWith_of_outside p.opMap (s := resetAt 65536) (by decide))

theorem hostRunWith_off_the_top {p : Config.Params} (hp : p.opMap[0]? = some .nop) :
    hostRunWith p 65537 State.reset = .next ((resetAt 65536).raise ⟨.outOfBoundsAccess, 0x10000⟩) :=
  (runBy_add (m := 65536) (hostRunWith_resetAt hp le_rfl) 1).trans (runBy_one rfl (stepWith_top p))

/-- Settles O56: the machine's own run is the parametric one at the values in force. -/
theorem emptyImageRunsOffTheTop : Obligations.EmptyImageRunsOffTheTop := by
  obtain ⟨-, hrun, -⟩ := Parameters.parametersActWhereNamed
  have hnop : paramsInForce.opMap[0]? = some .nop := rfl
  refine ⟨fun n hn => ?_, ?_, fun p hp => ⟨fun n hn => hostRunWith_resetAt hp hn, hostRunWith_off_the_top hp⟩⟩
  · rw [← hrun]; exact hostRunWith_resetAt hnop hn
  · rw [← hrun]; exact hostRunWith_off_the_top hnop

/-! ### What the host reads -/

theorem regs_toList_at (s : State) (q : Reg) : s.regs.toList[q.toNat]? = some (s.reg q) := by
  simp [State.reg]

/-- F read as a number has S, Z, C, O in bits 0 to 3 (10_state.md R22). -/
theorem toNibble_bits (f : Flags) :
    f.toNibble.getLsbD 0 = f.sign ∧ f.toNibble.getLsbD 1 = f.nonzero ∧ f.toNibble.getLsbD 2 = f.carry ∧
      f.toNibble.getLsbD 3 = f.overflow := by
  obtain ⟨s, z, c, o⟩ := f
  revert s z c o; decide

theorem hostReadMem_of_inside {addr : Word} {n : Nat} (h : InsideMemory addr n) (s : State) :
    hostReadMem addr n s = some (s.mem.bytes addr.toNat n) := by
  rw [hostReadMem, memReadBytes, if_pos ((insideMemory_iff addr n).1 h)]

theorem hostReadMem_of_not_inside {addr : Word} {n : Nat} (h : ¬ InsideMemory addr n) (s : State) :
    hostReadMem addr n s = none := by
  rw [hostReadMem, memReadBytes, if_neg (mt (insideMemory_iff addr n).2 h)]

/-- Settles O57: each read by its own equation. -/
theorem hostReadsWhatTheStateHolds : Obligations.HostReadsWhatTheStateHolds := by
  refine ⟨fun s q => ⟨regs_toList_at s q, regs_toList_at s q⟩, fun s k hk => ?_, fun s addr n h => ?_,
    fun s addr n h => hostReadMem_of_not_inside h s, fun s => ⟨rfl, rfl, toNibble_bits s.flags⟩⟩
  · exact List.getElem?_eq_none (by rw [Vector.length_toList]; omega)
  · exact ⟨_, hostReadMem_of_inside h s, bytes_length _ _ _, fun k hk => bytes_getD _ _ _ _ hk⟩

end Sys2Proof.Proofs.ResetHost
